-- ==== Sys2Proof/Word.lean ====
section
/-! DEFINITION. The widths of the decode engine: a byte of the guest byte buffer, a 16-bit fetch unit, and the
`XLEN` = 64-bit word of registers, program counter and guest address. -/

namespace Sys2Proof

/-- One byte of the guest byte buffer (20_memory.md R32). -/
abbrev Byte := BitVec 8

/-- One fetch unit, `UNIT` = 16 bits (00_scope.md R6, 41_length_detect.md R71). -/
abbrev FetchUnit := BitVec 16

/-- A value of `XLEN` = 64 bits: a register, the program counter, `guestAddress`, the sign-extend unit's output
(00_scope.md R6; the width of all but the last is the spec's decision D2, log 14). Addition wraps modulo 2^64 (R7). -/
abbrev Word := BitVec 64

end Sys2Proof
end

