-- ==== Sys2Proof/Syntax.lean ====
section
/-! DEFINITION. The guest instructions the engine recognises (one constructor per row of the opcode table), the
instruction word, and the quadrant that selects a decode-rule group. -/

namespace Sys2Proof

/-- The guest instructions of spec/opcode_table.json. -/
inductive Instr where
  /-- `c.lui rd, imm` (44_rule_c_lui.md R105): `rd` is `word[11:7]`; `imm6` is `word[12]` above `word[6:2]`
  (30_encoding.md R51). -/
  | cLui (rd : BitVec 5) (imm6 : BitVec 6)
deriving DecidableEq, Repr

/-- What a trace line says (43_quadrant_dispatch.md R95, R100): which instruction fired, or, for a rule added to the rule
set, whatever text that rule makes. The text is not interpreted (60_exceptions.md R138; log 15). -/
inductive TraceLine where
  | instr (i : Instr)
  | rule (text : String)
deriving DecidableEq, Repr

/-- The InstructionWord: an unsigned 16- or 32-bit value (10_state.md R17). -/
inductive InstrWord where
  | compressed (word : BitVec 16)
  | full (word : BitVec 32)
deriving DecidableEq, Repr

/-- `wordWidth` of an instruction word (10_state.md R17). -/
def InstrWord.width : InstrWord → Nat
  | .compressed _ => 16
  | .full _ => 32

/-- The length in bytes, 2 or 4 (41_length_detect.md R72, R75). -/
def InstrWord.length : InstrWord → Nat
  | .compressed _ => 2
  | .full _ => 4

/-- The word on a 32-bit path: a 16-bit word's upper 16 bits are zero there (41_length_detect.md R75, decision D21). -/
def InstrWord.path : InstrWord → BitVec 32
  | .compressed w => w.setWidth 32
  | .full w => w

/-- The quadrant `word[1:0]`, which names one of the four decode-rule groups (30_encoding.md R48): `q01` is Group01. -/
inductive Quadrant where
  | q00
  | q01
  | q10
  | q11
deriving DecidableEq, Repr

end Sys2Proof
end

