-- ==== Sys2Proof/WellFormed.lean ====
section
/-! DEFINITION. The operands each instruction admits: the legality conditions of the decode rules. -/

namespace Sys2Proof

/-- The legality check of `c.lui` (44_rule_c_lui.md R106): `rd != 0`, `rd != 2`, `imm6 != 0`. -/
def Instr.wf : Instr → Bool
  | .cLui rd imm6 => rd != 0 && rd != 2 && imm6 != 0

end Sys2Proof
end

