-- ==== Sys2Proof/Decode.lean ====
section
/-! DEFINITION. From bytes to an instruction and back: the bit-field extractor, the fetch unit, the length detector, the
patterns of the four decode-rule groups (fixed bits, legality, operands), the decoder, total on any bytes, and the
encoder written from the same encoding table. -/

namespace Sys2Proof

/-! ## Bit-field extractor -/

/-- `extractField(word, high, low)`: bits `low..high` of `word`, right-aligned (40_bitfield_signext.md R63). Its
precondition `0 ≤ low ≤ high ≤ wordWidth-1` (R64) is a static obligation on each call site: the proof argument. -/
def extractField {n : Nat} (word : BitVec n) (high low : Nat) (_inRange : low ≤ high ∧ high < n := by decide) :
    BitVec (high - low + 1) :=
  BitVec.ofNat (high - low + 1) (word.toNat >>> low)

/-! ## Fetch units and the length detector -/

/-- The two bytes of a fetch unit, the lower offset less significant (20_memory.md R33; decision D3, log 14). -/
def fetchUnit (lo hi : Byte) : FetchUnit := hi ++ lo

/-- The two units of a 4-byte instruction: `unit0 | (unit1 << 16)` (20_memory.md R34, 41_length_detect.md R73). -/
def pairUnits (unit0 unit1 : FetchUnit) : BitVec 32 := unit1 ++ unit0

/-- `isCompressed = (extractField(unit, 1, 0) != 0b11)` (41_length_detect.md R72). -/
def isCompressed (unit : FetchUnit) : Bool := extractField unit 1 0 != 0b11#2

/-- `LengthDetect` (41_length_detect.md R75) over any reader of fetch units; `none` where a unit it needs is not there.
The second unit is read only when the first is not compressed (R76); bits 4..2 are never looked at (R74). -/
def lengthDetectWith (readUnit : Nat → Option FetchUnit) (offset : Nat) : Option InstrWord :=
  match readUnit offset with
  | none => none
  | some unit0 =>
    if isCompressed unit0 then some (.compressed unit0)
    else match readUnit (offset + 2) with
      | none => none
      | some unit1 => some (.full (pairUnits unit0 unit1))

/-! ## Quadrant and patterns -/

/-- The quadrant a 2-bit field names (30_encoding.md R48). -/
def quadrantOfBits (q : BitVec 2) : Quadrant :=
  match q with
  | 0b00#2 => .q00
  | 0b01#2 => .q01
  | 0b10#2 => .q10
  | _ => .q11

/-- The quadrant of a word, by `extractField(word, 1, 0)` (43_quadrant_dispatch.md R92). -/
def quadrantOf (word : BitVec 32) : Quadrant := quadrantOfBits (extractField word 1 0)

/-- One pattern predicate of a group: the name, fixed bits and legality of a rule (43_quadrant_dispatch.md R95), and the
instruction the operand fields name. -/
structure Pattern where
  name : String
  fixed : BitVec 32 → Bool
  legal : BitVec 32 → Bool
  instr : BitVec 32 → Instr

/-- `rd = extractField(word, 11, 7)` (30_encoding.md R62). -/
def cLuiRd (word : BitVec 32) : BitVec 5 := extractField word 11 7

/-- `imm6 = (extractField(word, 12, 12) << 5) | extractField(word, 6, 2)` (30_encoding.md R51). -/
def cLuiImm6 (word : BitVec 32) : BitVec 6 :=
  ((extractField word 12 12 : BitVec 1).setWidth 6 <<< 5) ||| (extractField word 6 2 : BitVec 5).setWidth 6

/-- The fixed bits of `c.lui` (44_rule_c_lui.md R105): quadrant `0b01` and `word[15:13] = 0b011`. The positions and the
funct value are the spec's, from general knowledge GK2 (log 19). -/
def cLuiFixed (word : BitVec 32) : Bool :=
  extractField word 1 0 == 0b01#2 && extractField word 15 13 == 0b011#3

/-- The legality check of `c.lui` on a word (44_rule_c_lui.md R106). -/
def cLuiLegal (word : BitVec 32) : Bool :=
  (Instr.cLui (cLuiRd word) (cLuiImm6 word)).wf

/-- The pattern of `c.lui` (30_encoding.md R53). -/
def cLuiPattern : Pattern where
  name := "c.lui"
  fixed := cLuiFixed
  legal := cLuiLegal
  instr := fun word => .cLui (cLuiRd word) (cLuiImm6 word)

/-- The minimal rule set's patterns, group by group, in order (43_quadrant_dispatch.md R101). -/
def patterns : Quadrant → List Pattern
  | .q00 => []
  | .q01 => [cLuiPattern]
  | .q10 => []
  | .q11 => []

/-- First legal match wins (43_quadrant_dispatch.md R98): a rejected match passes on to the next pattern (R97). -/
def firstMatch : List Pattern → BitVec 32 → Option Instr
  | [], _ => none
  | p :: ps, word => if p.fixed word && p.legal word then some (p.instr word) else firstMatch ps word

/-- The instruction an instruction word names, if a rule of its group fires on it. -/
def decodeWord (w : InstrWord) : Option Instr :=
  firstMatch (patterns (quadrantOf w.path)) w.path

/-! ## The decoder on bytes -/

/-- Why bytes do not decode. -/
inductive DecodeReject where
  /-- Fewer bytes than the instruction needs: no step (20_memory.md R32). -/
  | tooFewBytes
  /-- No rule of the word's group fires: the decode failure, one cause for illegal and unimplemented encodings alike
  (60_exceptions.md R124). -/
  | noDecode
deriving DecidableEq, Repr

/-- The fetch unit at an index of a list of bytes. -/
def unitOfBytes (bytes : List Byte) (offset : Nat) : Option FetchUnit :=
  match bytes[offset]?, bytes[offset + 1]? with
  | some lo, some hi => some (fetchUnit lo hi)
  | _, _ => none

/-- The decoder: the instruction at the head of `bytes` and the bytes after it, or the reason there is none. -/
def decode (bytes : List Byte) : Except DecodeReject (Instr × List Byte) :=
  match lengthDetectWith (unitOfBytes bytes) 0 with
  | none => .error .tooFewBytes
  | some w =>
    match decodeWord w with
    | none => .error .noDecode
    | some i => .ok (i, bytes.drop w.length)

/-- The longest instruction is 4 bytes (30_encoding.md R47). A table word of `nbits` bits, the bits above zero, laid out
little-endian as the buffer holds it (20_memory.md R34). -/
def tableBytes (nbits w : Nat) : List Byte :=
  let v := w % 2 ^ nbits
  [BitVec.ofNat 8 v, BitVec.ofNat 8 (v >>> 8), BitVec.ofNat 8 (v >>> 16), BitVec.ofNat 8 (v >>> 24)]

/-- The instruction the decoder reads from a word of the opcode table. -/
def decodeTableWord (nbits w : Nat) : Option Instr :=
  match decode (tableBytes nbits w) with
  | .ok (i, _) => some i
  | .error _ => none

/-! ## The encoder -/

/-- The word of an instruction, field by field from bit 15 down, from the table of format CI-lui (30_encoding.md R50). -/
def encode : Instr → InstrWord
  | .cLui rd imm6 =>
    .compressed (0b011#3 ++ (extractField imm6 5 5 : BitVec 1) ++ rd ++ (extractField imm6 4 0 : BitVec 5) ++ 0b01#2)

/-- The bytes of an instruction word in buffer order (20_memory.md R33, R34). -/
def InstrWord.bytes : InstrWord → List Byte
  | .compressed w => [extractField w 7 0, extractField w 15 8]
  | .full w => [extractField w 7 0, extractField w 15 8, extractField w 23 16, extractField w 31 24]

end Sys2Proof
end

