-- ==== Sys2Proof/Config.lean ====
section
/-! DEFINITION. What an implementation fixes: the two open types of the DecodeResult and the one free value. The numbers of
the spec's parameter table (00_scope.md R6) are in Machine/Params.lean. -/

namespace Sys2Proof.Config

/-- `OtherKind`: the values of `terminalKind` the source does not enumerate (10_state.md R22). The spec leaves the type
open; the model numbers its values. DESIGN CHOICE, safe, log 11. -/
abbrev OtherKind := Nat

/-- `OtherHint`: the values of `hint` the source does not enumerate (10_state.md R22). DESIGN CHOICE, safe, log 11. -/
abbrev OtherHint := Nat

/-- FREE VALUE, log 15: whether a firing rule produces its trace line in a call whose `diagnosticsEnabled` is false, a
function of the call's address and of the line. The source does not say (44_rule_c_lui.md R107). -/
opaque traceLineWhenQuiet (guestAddress : Word) (line : TraceLine) : Bool

end Sys2Proof.Config
end

