-- ==== Sys2Proof/Machine/Params.lean ====
section
/-! DEFINITION. The numbers of the parameter table (00_scope.md R6), each under its name. -/

namespace Sys2Proof.Machine

/-- `NREGS`: integer registers, numbered 0..31 (10_state.md R14). -/
def nregs : Nat := 32

/-- `PC_ALIGN`: `guestAddress` must be a multiple of it (20_memory.md R36). -/
def pcAlign : Nat := 4

/-- The width the sign-extend unit must exceed: `1 < width` (40_bitfield_signext.md R67). -/
def signExtendAbove : Nat := 1

/-- The width the sign-extend unit must stay below: `width < 64` (40_bitfield_signext.md R67). -/
def signExtendBelow : Nat := 64

/-- The width of the immediate of `c.lui` (30_encoding.md R51). -/
def cLuiImmWidth : Nat := 18

end Sys2Proof.Machine
end

