-- ==== Sys2Proof/Machine/Flags.lean ====
section
/-! DEFINITION. The engine's status. There are no condition codes and no status flags (10_state.md R26): the only status a
call produces is the DecodeResult and, inside the call, a group's match / no-match answer. -/

namespace Sys2Proof.Machine

/-- `nextAction` (10_state.md R18): `goOn` is the spec's `continue`, a word Lean keeps for itself. -/
inductive NextAction where
  | goOn
  | stop
deriving DecidableEq, Repr

/-- `consumedBytes`, one of 0, 2 and 4 (10_state.md R18). -/
inductive ConsumedBytes where
  | zero
  | two
  | four
deriving DecidableEq, Repr

/-- `terminalKind` (10_state.md R18, R22). -/
inductive TerminalKind where
  | none
  | noDecode
  | other (k : Config.OtherKind)
deriving DecidableEq, Repr

/-- `hint`, the scheduling hint (10_state.md R18, R22). -/
inductive Hint where
  | none
  | other (h : Config.OtherHint)
deriving DecidableEq, Repr

/-- The DecodeResult (10_state.md R18). -/
structure DecodeResult where
  nextAction : NextAction
  consumedBytes : ConsumedBytes
  terminalKind : TerminalKind
  hint : Hint
deriving DecidableEq, Repr

/-- The number of bytes a `consumedBytes` value stands for. -/
def ConsumedBytes.bytes : ConsumedBytes → Nat
  | .zero => 0
  | .two => 2
  | .four => 4

/-- `DEFAULTS`, set at the start of every call (10_state.md R18, 45_driver.md R110). -/
def DecodeResult.defaults : DecodeResult where
  nextAction := .goOn
  consumedBytes := .four
  terminalKind := .none
  hint := .none

/-- `FAILED`, returned on a decode failure (10_state.md R18, 45_driver.md R116). -/
def DecodeResult.failed : DecodeResult where
  nextAction := .stop
  consumedBytes := .zero
  terminalKind := .noDecode
  hint := .none

/-- What a decode-rule group answers (43_quadrant_dispatch.md R93, R94). -/
inductive Answer where
  | noMatch
  | matched
deriving DecidableEq, Repr

/-- The `consumedBytes` a firing rule sets in each group (43_quadrant_dispatch.md R92, R94). -/
def consumedOf : Quadrant → ConsumedBytes
  | .q00 => .two
  | .q01 => .two
  | .q10 => .two
  | .q11 => .four

/-! ## Codes at a port (60_exceptions.md R129, decision D24) -/

/-- 0 continue, 1 stop. -/
def NextAction.code : NextAction → Nat
  | .goOn => 0
  | .stop => 1

/-- The number itself. -/
def ConsumedBytes.code (c : ConsumedBytes) : Nat := c.bytes

/-- 0 none, 1 no-decode, 2 and up other. -/
def TerminalKind.code : TerminalKind → Nat
  | .none => 0
  | .noDecode => 1
  | .other k => k + 2

/-- 0 none, 1 and up other. -/
def Hint.code : Hint → Nat
  | .none => 0
  | .other h => h + 1

end Sys2Proof.Machine
end

