-- ==== Sys2Proof/Machine/IR.lean ====
section
/-! DEFINITION. The IR vocabulary (42_register_model_ir.md R78, decision D13) and the IR block (10_state.md R20). -/

namespace Sys2Proof.Machine

/-- IR types: `I64`, the register-width type. "other types may exist, none is used" (42_register_model_ir.md R78): they are
numbered. DESIGN CHOICE, safe, log 12. -/
inductive IRType where
  | i64
  | other (k : Nat)
deriving DecidableEq, Repr

/-- A guest-state location: one per register and one for the program counter, 33 distinct symbolic locations
(10_state.md R19; decision D16 allows the symbolic form, log 10). -/
inductive Offset where
  | reg (n : Fin 32)
  | pc
deriving DecidableEq, Repr

/-- A temporary: an index into the block's registry (42_register_model_ir.md R78). -/
abbrev Temp := Nat

/-- IR expressions (42_register_model_ir.md R78). -/
inductive IRExpr where
  | const64 (v : Word)
  | get (off : Offset) (ty : IRType)
  | rdTmp (t : Temp)
deriving DecidableEq, Repr

/-- IR statements (42_register_model_ir.md R78). -/
inductive IRStmt where
  | put (off : Offset) (e : IRExpr)
  | wrTmp (t : Temp) (e : IRExpr)
deriving DecidableEq, Repr

/-- The IR block: its statements and its registry of typed temporaries (10_state.md R20). -/
structure IRBlock where
  stmts : List IRStmt
  tmps : List IRType
deriving DecidableEq, Repr

/-- A block with nothing in it. -/
def IRBlock.empty : IRBlock where
  stmts := []
  tmps := []

/-- `typeOf` (42_register_model_ir.md R78). A temporary that is not in the registry has no type: DESIGN CHOICE, safe,
log 13. -/
def typeOf (block : IRBlock) : IRExpr → Option IRType
  | .const64 _ => some .i64
  | .get _ ty => some ty
  | .rdTmp t => block.tmps[t]?

/-- `REGOFFSET` over register numbers 0..31 (10_state.md R19). -/
def regOffset (n : Fin 32) : Offset := .reg n

/-- `PCOFFSET` (10_state.md R19). -/
def pcOffset : Offset := .pc

end Sys2Proof.Machine
end

