-- ==== Sys2Proof/Machine/State.lean ====
section
/-! DEFINITION. The state of the engine, of its caller's inputs and block, and of the guest state its IR names; the reasons
a step can stop; reset. Plain data throughout. -/

namespace Sys2Proof.Machine

/-- Why a call aborts: the internal invariant violations (60_exceptions.md R127). -/
inductive AbortReason where
  /-- Register number not in 0..31; raised by `getRegister` and `putRegister` (42_register_model_ir.md R79, R80). Safe. -/
  | registerRange
  /-- Width not in 2..63; raised by `signExtend` (40_bitfield_signext.md R67). Safe. -/
  | signExtendWidth
  /-- Expression type not `I64`; raised by `putRegister` and `putPC` (42_register_model_ir.md R80, R81). Safe. -/
  | registerWriteType
  /-- No-match answered with a changed result; raised by the driver (45_driver.md R117). Safe. -/
  | protocolViolation
  /-- `guestAddress` not a multiple of 4; raised by the driver (45_driver.md R112). Safe. -/
  | misalignedGuestAddress
  /-- `low > high` or `high >= wordWidth`; raised by a dynamic `extractField` (40_bitfield_signext.md R64, decision D11).
  Safe. -/
  | extractRange
deriving DecidableEq, Repr

/-- Why the machine stops. -/
inductive Fault where
  /-- An abort ends the call and the run, and leaves no state with a meaning (60_exceptions.md R126, decision D10).
  Raised by whichever operation the reason names. Safe: nothing can be proved of what follows it. -/
  | abort (reason : AbortReason)
  /-- No step at all: the buffer lacks a byte the call reads (20_memory.md R32, 00_scope.md R9). Raised by the driver's
  read. Safe: nothing can be proved of what follows it. -/
  | noStep
deriving DecidableEq, Repr

/-- Why an instruction has no meaning. -/
inductive Refusal where
  /-- The instruction has no meaning yet. Raised by no arm of exec: every instruction has its meaning. Safe. -/
  | notModelled (mnemonic : String)
deriving DecidableEq, Repr

/-- The guest byte buffer: the resident bytes by index, indices strictly rising. An unlisted index has no byte
(20_memory.md R32; log 3). -/
abbrev Memory := List Host.Cell

/-- The dispatcher's state (10_state.md R24, 43_quadrant_dispatch.md R91). -/
inductive DispatcherState where
  | init
  | group (q : Quadrant)
deriving DecidableEq, Repr

/-- A text output (60_exceptions.md R138); its text is not interpreted. -/
inductive TextOutput where
  /-- The trace line of a firing rule (43_quadrant_dispatch.md R100 item 6, 44_rule_c_lui.md R107). -/
  | traceLine (line : TraceLine)
  /-- The diagnostic dump of a failed decode: the failing word (45_driver.md R118), with its address (decision D15). -/
  | dump (guestAddress : Word) (word : InstrWord)
deriving DecidableEq, Repr

/-- The guest state: storage of the surrounding system that IR names by offset (10_state.md R14 to R16, R19), and the
temporary environment its IR runs over (42_register_model_ir.md R90). No decode call reads or writes it (R29; log 9). -/
structure GuestState where
  regs : Vector Word 32
  pc : Word
  env : List (Nat × Word)
deriving DecidableEq, Repr

/-- The machine's state (10_state.md R13): the call's inputs, its working state, the caller's block, the outputs, and the
guest state the block's IR is about. -/
structure State where
  /-- Input: the guest byte buffer (R28). -/
  buffer : Memory
  /-- Input: where the instruction starts in the buffer (45_driver.md R109). Its width is not in the spec
  (91_not_in_source.md N12): a natural number, so the indices after it never wrap. DESIGN CHOICE, unsafe, log 21. -/
  offset : Nat
  /-- Input: the guest address of the instruction (45_driver.md R109). -/
  guestAddress : Word
  /-- Input: enables the diagnostic dump (R25). -/
  diagnosticsEnabled : Bool
  /-- Working: the InstructionWord (R17), absent outside a call. -/
  instrWord : Option InstrWord
  /-- Working: the DecodeResult being built (R18). -/
  result : DecodeResult
  /-- Working: the dispatcher's state (R24). -/
  dispatcher : DispatcherState
  /-- Working: the index of the rule being tried (R24). -/
  ruleIndex : Nat
  /-- The caller-owned IR block (R20). -/
  block : IRBlock
  /-- Output: the DecodeResult of the last call, none before the first (70_reset_and_hazards.md R143). -/
  output : Option DecodeResult
  /-- Output: trace lines and diagnostic dumps, oldest first (60_exceptions.md R138). -/
  textOut : List TextOutput
  /-- The guest state of the surrounding system (R14 to R16). -/
  guest : GuestState
deriving DecidableEq, Repr

/-- The guest state at reset: register 0 holds zero (10_state.md R15); the other values are the surrounding system's,
here zero. DESIGN CHOICE, unsafe, log 6. -/
def GuestState.reset : GuestState where
  regs := Vector.replicate 32 0
  pc := 0
  env := []

/-- The state after reset (70_reset_and_hazards.md R143): the dispatcher in `Init`, no word, no valid result, the first
rule of the list. Inputs, block, text and guest values are DESIGN CHOICE, unsafe, logs 3, 5, 6, 7, 15; the working result's
is log 8. -/
def State.reset : State where
  buffer := []
  offset := 0
  guestAddress := 0
  diagnosticsEnabled := false
  instrWord := none
  result := .defaults
  dispatcher := .init
  ruleIndex := 0
  block := .empty
  output := none
  textOut := []
  guest := .reset

end Sys2Proof.Machine
end

