-- ==== Sys2Proof/Machine/Ops.lean ====
section
/-! DEFINITION. The named operations: sparse cells, buffer reads, the length detector over the buffer, the register model
and IR emission helpers, the updates of State, and taking a decode failure, the engine's one exception entry. -/

namespace Sys2Proof.Machine

/-! ## Sparse cells: one canonical form for the buffer and for the temporary environment -/

/-- The value at a key, none where the key is unlisted. -/
def Cells.lookup {β : Type} : List (Nat × β) → Nat → Option β
  | [], _ => none
  | (k, v) :: rest, a => if a = k then some v else Cells.lookup rest a

/-- Set the value at a key, keeping the keys strictly rising. -/
def Cells.insert {β : Type} : List (Nat × β) → Nat → β → List (Nat × β)
  | [], a, b => [(a, b)]
  | (k, v) :: rest, a, b =>
    if a < k then (a, b) :: (k, v) :: rest
    else if a = k then (a, b) :: rest
    else (k, v) :: Cells.insert rest a b

/-- The canonical form: keys strictly rising. An unlisted key has no value, so no entry can equal one. -/
def Cells.sorted {β : Type} : List (Nat × β) → Bool
  | [] => true
  | [_] => true
  | (k, _) :: (k', v') :: rest => decide (k < k') && Cells.sorted ((k', v') :: rest)

/-! ## The guest byte buffer -/

/-- The byte at an index of the buffer, none where no byte is resident (20_memory.md R32). -/
def Memory.read (m : Memory) (a : Nat) : Option Byte := Cells.lookup m a

/-- Put one byte into the buffer: the caller's operation between calls; the engine never writes (10_state.md R28). -/
def Memory.write (m : Memory) (a : Nat) (b : Byte) : Memory := Cells.insert m a b

/-- Put bytes into the buffer from an index upward. -/
def Memory.load (m : Memory) (a : Nat) : List Byte → Memory
  | [] => m
  | b :: bs => Memory.load (m.write a b) (a + 1) bs

/-- The canonical form of a buffer. -/
def Memory.wf (m : Memory) : Bool := Cells.sorted m

/-- `BufRead16(buffer, off)` (20_memory.md R33). The index after `off` never wraps (log 21). -/
def bufRead16 (m : Memory) (off : Nat) : Option FetchUnit :=
  match m.read off, m.read (off + 1) with
  | some lo, some hi => some (fetchUnit lo hi)
  | _, _ => none

/-- `LengthDetect(buffer, offset)` (41_length_detect.md R75). -/
def lengthDetect (m : Memory) (offset : Nat) : Option InstrWord :=
  lengthDetectWith (bufRead16 m) offset

/-! ## Aborts -/

/-- A checked operation's end as a step's outcome: an abort is a fault (60_exceptions.md R126). -/
def conclude : Except AbortReason State → Host.Outcome State Fault Refusal
  | .ok s => .next s
  | .error r => .fault (.abort r)

/-- Go on with what an operation leaves; a fault or a refusal ends the call (60_exceptions.md R126). -/
def andThen {α β : Type} (x : Host.Outcome α Fault Refusal) (f : α → Host.Outcome β Fault Refusal) :
    Host.Outcome β Fault Refusal :=
  match x with
  | .next a => f a
  | .fault r => .fault r
  | .refused r => .refused r

/-- `extractField` with positions known only when it is called: a broken precondition aborts (40_bitfield_signext.md R64,
decision D11). -/
def extractFieldDyn {n : Nat} (word : BitVec n) (high low : Nat) : Except AbortReason (BitVec (high - low + 1)) :=
  if h : low ≤ high ∧ high < n then .ok (extractField word high low h) else .error .extractRange

/-- The abort reasons' numbers at a port (60_exceptions.md R129). -/
def AbortReason.code : AbortReason → Nat
  | .registerRange => 1
  | .signExtendWidth => 2
  | .registerWriteType => 3
  | .protocolViolation => 4
  | .misalignedGuestAddress => 5
  | .extractRange => 6

/-- The outcome's number at a port: 0 `Done`, 1 `Abort`; a call with no step has none (60_exceptions.md R129). -/
def outcomeCode : Host.Outcome State Fault Refusal → Option Nat
  | .next _ => some 0
  | .fault (.abort _) => some 1
  | .fault .noStep => none
  | .refused _ => none

/-! ## IR emission helpers -/

/-- `mkConst64(v)`: `Const64(v mod 2^64)`, a signed value by its two's complement bits (42_register_model_ir.md R86). -/
def mkConst64 (v : Int) : IRExpr := .const64 (BitVec.ofInt 64 v)

/-- `newTemp(block, ty)`: the next free index of the registry (42_register_model_ir.md R87). -/
def newTemp (block : IRBlock) (ty : IRType) : Temp × IRBlock :=
  (block.tmps.length, { block with tmps := block.tmps ++ [ty] })

/-- `append(block, s)`: the only operation that changes the statements (42_register_model_ir.md R88). -/
def append (block : IRBlock) (s : IRStmt) : IRBlock :=
  { block with stmts := block.stmts ++ [s] }

/-! ## Register model -/

/-- `getRegister(n)` (42_register_model_ir.md R79). Register 0 is an ordinary read (10_state.md R15). -/
def getRegister (n : Nat) : Except AbortReason IRExpr :=
  if h : n < 32 then .ok (.get (regOffset ⟨n, h⟩) .i64) else .error .registerRange

/-- `putRegister(block, n, expr)` (42_register_model_ir.md R80): the range first, then the type (decision D27). Register 0
is an ordinary write (10_state.md R15). -/
def putRegister (block : IRBlock) (n : Nat) (e : IRExpr) : Except AbortReason IRBlock :=
  if h : n < 32 then
    if typeOf block e = some .i64 then .ok (append block (.put (regOffset ⟨n, h⟩) e))
    else .error .registerWriteType
  else .error .registerRange

/-- `putPC(block, expr)` (42_register_model_ir.md R81). -/
def putPC (block : IRBlock) (e : IRExpr) : Except AbortReason IRBlock :=
  if typeOf block e = some .i64 then .ok (append block (.put pcOffset e)) else .error .registerWriteType

/-! ## Updates of State -/

/-- A call's working state made fresh: `result = DEFAULTS` (45_driver.md R110), the dispatcher in `Init`, no word yet
(10_state.md R23, R24). -/
def State.startCall (s : State) : State :=
  { s with instrWord := none, result := .defaults, dispatcher := .init, ruleIndex := 0 }

/-- The length detector's output, kept for the call (45_driver.md R111). -/
def State.withWord (s : State) (w : InstrWord) : State := { s with instrWord := some w }

/-- The dispatcher's one transition, to a group and its first rule (43_quadrant_dispatch.md R91). -/
def State.enterGroup (s : State) (q : Quadrant) : State := { s with dispatcher := .group q, ruleIndex := 0 }

/-- Past `k` rules of the group (10_state.md R24). -/
def State.passRules (s : State) (k : Nat) : State := { s with ruleIndex := s.ruleIndex + k }

/-- The block after appends to it. -/
def State.withBlock (s : State) (b : IRBlock) : State := { s with block := b }

/-- The working result as a rule sets it. -/
def State.withResult (s : State) (r : DecodeResult) : State := { s with result := r }

/-- Text outputs added after those there are. -/
def State.emit (s : State) (ts : List TextOutput) : State := { s with textOut := s.textOut ++ ts }

/-- The call ends `Done(r)`: the result at the port, the working state discarded (10_state.md R23; log 8). -/
def State.retire (s : State) (r : DecodeResult) : State :=
  { s with output := some r, instrWord := none, result := .defaults, dispatcher := .init, ruleIndex := 0 }

/-- The guest state after the surrounding system ran IR. -/
def State.withGuest (s : State) (g : GuestState) : State := { s with guest := g }

/-- The bytes of guest code put into the buffer, by the caller, between calls (20_memory.md R45). -/
def State.loadBuffer (s : State) (a : Nat) (bytes : List Byte) : State :=
  { s with buffer := s.buffer.load a bytes }

/-- What a firing rule adds to the text outputs (44_rule_c_lui.md R107): its trace line when diagnostics are enabled; when
they are not, a free value says (log 15). -/
def traceLines (diagnosticsEnabled : Bool) (guestAddress : Word) (line : TraceLine) : List TextOutput :=
  if diagnosticsEnabled || Config.traceLineWhenQuiet guestAddress line then [.traceLine line] else []

/-- What a failed decode adds to the text outputs: the dump of the failing word, made only when diagnostics are enabled
(45_driver.md R118). -/
def dumpLines (diagnosticsEnabled : Bool) (guestAddress : Word) (w : Option InstrWord) : List TextOutput :=
  match diagnosticsEnabled, w with
  | true, some w => [.dump guestAddress w]
  | _, _ => []

/-- The text outputs of a firing rule. -/
def State.traceRule (s : State) (line : TraceLine) : State :=
  s.emit (traceLines s.diagnosticsEnabled s.guestAddress line)

/-- The text outputs of a failed decode. -/
def State.dumpWord (s : State) : State :=
  s.emit (dumpLines s.diagnosticsEnabled s.guestAddress s.instrWord)

/-! ## Taking a decode failure -/

/-- The engine's one exception entry (60_exceptions.md R132), step 6 of the driver (45_driver.md R116, R118): the
instruction's own address written to the program counter by one appended statement, the dump when enabled, `FAILED`
returned. No vector, no mode. There is no return from it (R133): the caller may call again. -/
def takeDecodeFailure (s : State) : Host.Outcome State Fault Refusal :=
  conclude do
    let b ← putPC s.block (mkConst64 s.guestAddress.toNat)
    return ((s.withBlock b).dumpWord).retire .failed

end Sys2Proof.Machine
end

