-- ==== Sys2Proof/Machine/Operands.lean ====
section
/-! DEFINITION. Operand forms: the sign-extend unit and the one immediate of the rule set. -/

namespace Sys2Proof.Machine

/-- The sign-extend unit's arithmetic (40_bitfield_signext.md R66): with `v = value mod 2^width`, `v` itself below
`2^(width-1)`, else `v - 2^width` in 64-bit two's complement. Input bits at `width` and above are ignored (decision D12). -/
def signExtendValue (value : Word) (width : Nat) : Word :=
  let v := value.toNat % 2 ^ width
  if v < 2 ^ (width - 1) then BitVec.ofNat 64 v else BitVec.ofInt 64 ((v : Int) - 2 ^ width)

/-- `signExtend(value, width)`: a width outside 2..63 aborts (40_bitfield_signext.md R67). -/
def signExtend (value : Word) (width : Nat) : Except AbortReason Word :=
  if signExtendAbove < width ∧ width < signExtendBelow then .ok (signExtendValue value width)
  else .error .signExtendWidth

/-- `uimm18 = imm6 << 12` (30_encoding.md R51), carried on 64 bits. -/
def cLuiUimm18 (imm6 : BitVec 6) : Word := imm6.setWidth 64 <<< 12

/-- `simm = signExtend(uimm18, 18)` (30_encoding.md R51). -/
def cLuiSimm (imm6 : BitVec 6) : Except AbortReason Word := signExtend (cLuiUimm18 imm6) cLuiImmWidth

end Sys2Proof.Machine
end

