-- ==== Sys2Proof/Machine/LoadUpper.lean ====
section
/-! DEFINITION. The compressed load-upper-immediate family: the action of `c.lui`. -/

namespace Sys2Proof.Machine

/-- The action of `c.lui` (44_rule_c_lui.md R105), run by a group on a call in progress: append
`Put(REGOFFSET(rd), Const64(simm))`, set `consumedBytes = 2`, leave the other result fields, produce the trace line. The
driver appends the program-counter write after it (45_driver.md R114; log 18). -/
def execCLui (rd : BitVec 5) (imm6 : BitVec 6) (s : State) : Host.Outcome State Fault Refusal :=
  conclude do
    let simm ← cLuiSimm imm6
    let b ← putRegister s.block rd.toNat (mkConst64 simm.toInt)
    return (((s.withBlock b).withResult { s.result with consumedBytes := .two }).traceRule (.instr (.cLui rd imm6)))

end Sys2Proof.Machine
end

