-- ==== Sys2Proof/Machine/Dispatch.lean ====
section
/-! DEFINITION. One arm per instruction: the action its rule takes when it fires. -/

namespace Sys2Proof.Machine

def exec (i : Instr) (s : State) : Host.Outcome State Fault Refusal :=
  match i with
  | .cLui rd imm6 => Sys2Proof.Machine.execCLui rd imm6 s

end Sys2Proof.Machine
end

