-- ==== Sys2Proof/Machine/Rules.lean ====
section
/-! DEFINITION. The quadrant multiplexer, decode-rule groups and the per-rule pattern matcher, for any rule set, and the
rule set of this hardware. -/

namespace Sys2Proof.Machine

/-- A rule (43_quadrant_dispatch.md R95). `fixed` and `legal` read only the word; `action` runs only when both hold, on a
call in progress (its address, block and result are in the state). -/
structure Rule where
  name : String
  fixed : BitVec 32 → Bool
  legal : BitVec 32 → Bool
  action : BitVec 32 → State → Host.Outcome State Fault Refusal

/-- A group: a word and a call in progress to an answer and the call after it (43_quadrant_dispatch.md R93, R94). -/
abbrev Group := BitVec 32 → State → Host.Outcome (Answer × State) Fault Refusal

/-- The driver's parameter: four groups, of whatever make (log 16). -/
abbrev RuleSet := Quadrant → Group

/-- `RULESET`: the ordered rule list of each group (00_scope.md R6, 10_state.md R30, 43_quadrant_dispatch.md R95). -/
abbrev RuleLists := Quadrant → List Rule

/-- A firing rule's action as its group's answer. -/
def Rule.fire (r : Rule) (word : BitVec 32) (s : State) : Host.Outcome (Answer × State) Fault Refusal :=
  andThen (r.action word s) fun s' => .next (.matched, s')

/-- `Group` over an ordered list of rules (43_quadrant_dispatch.md R98): the first rule whose fixed bits match and whose
operands are legal fires; every other rule is passed over with no effect (R96, R97). -/
def Group.ofRules : List Rule → Group
  | [], _, s => .next (.noMatch, s)
  | r :: rs, word, s =>
    if r.fixed word && r.legal word then r.fire word s else Group.ofRules rs word (s.passRules 1)

/-- The four groups of a `RULESET` (43_quadrant_dispatch.md R98). -/
def RuleSet.ofRules (rules : RuleLists) : RuleSet := fun q => Group.ofRules (rules q)

/-- `Dispatch` (43_quadrant_dispatch.md R104): the word's quadrant selects one group, and only it is asked (R91). -/
def dispatch (rs : RuleSet) (w : InstrWord) (s : State) : Host.Outcome (Answer × State) Fault Refusal :=
  rs (quadrantOf w.path) w.path (s.enterGroup (quadrantOf w.path))

/-- The rule of a pattern: its action is the meaning of the instruction the word names. -/
def ruleOf (p : Pattern) : Rule where
  name := p.name
  fixed := p.fixed
  legal := p.legal
  action := fun word s => exec (p.instr word) s

/-- `RULESET` of this hardware (43_quadrant_dispatch.md R101). -/
def ruleLists : RuleLists := fun q => (patterns q).map ruleOf

/-- The groups of this hardware (43_quadrant_dispatch.md R101). -/
def ruleSet : RuleSet := RuleSet.ofRules ruleLists

end Sys2Proof.Machine
end

