-- ==== Sys2Proof/Machine/Driver.lean ====
section
/-! DEFINITION. The top-level driver: one decode call, for any rule set (45_driver.md R119). -/

namespace Sys2Proof.Machine

/-- `guestAddress` is not a multiple of `PC_ALIGN` (20_memory.md R36, 45_driver.md R112). -/
def misaligned (a : Word) : Bool := a.toNat % pcAlign != 0

/-- Step 5, a match: with `continue` the program-counter write of `guestAddress + consumedBytes`, modulo 2^64
(45_driver.md R114); with `stop` nothing (R115); the result returned as the rule left it. -/
def finishMatch (s : State) : Host.Outcome State Fault Refusal :=
  match s.result.nextAction with
  | .goOn =>
    conclude do
      let b ← putPC s.block (mkConst64 (s.guestAddress + BitVec.ofNat 64 s.result.consumedBytes.bytes).toNat)
      return (s.withBlock b).retire s.result
  | .stop => .next (s.retire s.result)

/-- Step 6, no match: the protocol check (45_driver.md R117), then the decode failure (R116). -/
def finishNoMatch (s : State) : Host.Outcome State Fault Refusal :=
  if s.result = .defaults then takeDecodeFailure s else .fault (.abort .protocolViolation)

/-- Steps 5 and 6, by the dispatcher's answer. -/
def finish : Answer × State → Host.Outcome State Fault Refusal
  | (.matched, s) => finishMatch s
  | (.noMatch, s) => finishNoMatch s

/-- Steps 4 to 6 on a word already read, at an aligned address (45_driver.md R113 to R117). -/
def dispatchCall (rs : RuleSet) (w : InstrWord) (s : State) : Host.Outcome State Fault Refusal :=
  andThen (dispatch rs w s) finish

/-- `decode` (45_driver.md R119): defaults, read, alignment, dispatch, finish, in that order (R130). -/
def decodeCall (rs : RuleSet) (s : State) : Host.Outcome State Fault Refusal :=
  match lengthDetect s.buffer s.offset with
  | none => .fault .noStep
  | some w =>
    if misaligned s.guestAddress then .fault (.abort .misalignedGuestAddress)
    else dispatchCall rs w (s.startCall.withWord w)

end Sys2Proof.Machine
end

