-- ==== Sys2Proof/Machine/Step.lean ====
section
/-! DEFINITION. One step: one decode call of this hardware on the inputs State holds. -/

namespace Sys2Proof.Machine

/-- One decode call, atomic (00_scope.md R5, 70_reset_and_hazards.md R160). The inputs stay as the caller set them
(log 1). -/
def step (s : State) : Host.Outcome State Fault Refusal := decodeCall ruleSet s

/-- A caller's call of one table word: its bytes, and zeros up to the longest instruction, in the buffer at `offset`, and
`guestAddress` rounded down to a multiple of `PC_ALIGN` (unchanged where it already is one), so that the next step runs the
word (log 2). -/
def State.withFetchWord (s : State) (nbits w : Nat) : State :=
  { s.loadBuffer s.offset (tableBytes nbits w) with
    guestAddress := s.guestAddress - BitVec.ofNat 64 (s.guestAddress.toNat % pcAlign) }

end Sys2Proof.Machine
end

