-- ==== Sys2Proof/Machine/Caller.lean ====
section
/-! DEFINITION. The caller at the host interface: one decode call after another on one block (20_memory.md R42, 45_driver.md
R109). Which calls a caller makes is its own business (00_scope.md R4). -/

namespace Sys2Proof.Machine

/-- The per-call inputs beside the buffer (45_driver.md R109). -/
structure Call where
  /-- A natural number of no fixed width: DESIGN CHOICE, unsafe, log 21. -/
  offset : Nat
  guestAddress : Word
  diagnosticsEnabled : Bool
deriving DecidableEq, Repr

/-- The caller sets a call's inputs. -/
def State.present (s : State) (c : Call) : State :=
  { s with offset := c.offset, guestAddress := c.guestAddress, diagnosticsEnabled := c.diagnosticsEnabled }

/-- One decode call on the caller's inputs. -/
def issue (s : State) (c : Call) : Host.Outcome State Fault Refusal := step (s.present c)

/-- Decode calls one after another, up to the first that does not end `Done`. -/
def issueAll : List Call → State → Host.Outcome State Fault Refusal
  | [], s => .next s
  | c :: cs, s => andThen (issue s c) (issueAll cs)

end Sys2Proof.Machine
end

