-- ==== Sys2Proof/Machine/GuestRun.lean ====
section
/-! DEFINITION. What emitted IR means (42_register_model_ir.md R90): the surrounding system's evaluation of statements over
the guest state. No decode call uses it. -/

namespace Sys2Proof.Machine

/-- `gs[off]`. Register 0 reads zero at every point (10_state.md R15, 42_register_model_ir.md R90). -/
def GuestState.read (g : GuestState) : Offset → Word
  | .reg n => if n = 0 then 0 else g.regs[n]
  | .pc => g.pc

/-- `gs[off] <- v`. A write of register 0 has no lasting effect (10_state.md R15, 42_register_model_ir.md R90). -/
def GuestState.write (g : GuestState) (off : Offset) (v : Word) : GuestState :=
  match off with
  | .reg n => if n = 0 then g else { g with regs := g.regs.set n v }
  | .pc => { g with pc := v }

/-- `env[t] <- v`. -/
def GuestState.define (g : GuestState) (t : Temp) (v : Word) : GuestState :=
  { g with env := Cells.insert g.env t v }

/-- `eval`; a temporary that no `WrTmp` has defined has no value (42_register_model_ir.md R90). -/
def evalExpr (g : GuestState) : IRExpr → Option Word
  | .const64 v => some v
  | .get off _ => some (g.read off)
  | .rdTmp t => Cells.lookup g.env t

/-- `exec` of one statement; none where it has no meaning. -/
def runStmt (g : GuestState) : IRStmt → Option GuestState
  | .put off e => (evalExpr g e).map (g.write off)
  | .wrTmp t e => (evalExpr g e).map (g.define t)

/-- Statements run in block order. -/
def runStmts : List IRStmt → GuestState → Option GuestState
  | [], g => some g
  | st :: rest, g =>
    match runStmt g st with
    | none => none
    | some g' => runStmts rest g'

/-- The surrounding system runs the whole block on the guest state, some time after decoding (log 9). -/
def State.runBlock (s : State) : Option State :=
  (runStmts s.block.stmts s.guest).map s.withGuest

end Sys2Proof.Machine
end

