-- ==== Sys2Proof/Machine/Trace.lean ====
section
/-! DEFINITION. Display names and the recommended texts of the two text outputs. No outcome depends on any of it
(42_register_model_ir.md R82, 60_exceptions.md R138). -/

namespace Sys2Proof.Machine

/-- `ABINAME(n)` (42_register_model_ir.md R82; the names are general knowledge GK4, log 19). -/
def abiNames : List String :=
  ["zero", "ra", "sp", "gp", "tp", "t0", "t1", "t2",
   "s0", "s1", "a0", "a1", "a2", "a3", "a4", "a5",
   "a6", "a7", "s2", "s3", "s4", "s5", "s6", "s7",
   "s8", "s9", "s10", "s11", "t3", "t4", "t5", "t6"]

/-- The display name of a register, the empty text outside 0..31. -/
def abiName (n : Nat) : String := abiNames.getD n ""

/-- The characters of a number in a base, without leading zeros, letters in lower case. -/
def digits (base n : Nat) : List Char := Nat.toDigits base n

/-- The same, with leading zeros up to a width. -/
def digitsPadded (base width n : Nat) : List Char :=
  List.replicate (width - (digits base n).length) '0' ++ digits base n

/-- `imm20 = extractField(simm, 31, 12)` of the trace line (44_rule_c_lui.md R107). -/
def traceImm20 (imm6 : BitVec 6) : Nat :=
  (extractField (signExtendValue (cLuiUimm18 imm6) cLuiImmWidth) 31 12).toNat

/-- The value of an instruction word. -/
def wordNat : InstrWord → Nat
  | .compressed w => w.toNat
  | .full w => w.toNat

/-- The recommended text of an output, as characters (44_rule_c_lui.md R107, 45_driver.md R118, decision D15). -/
def TextOutput.recommended : TextOutput → List Char
  | .traceLine (.rule text) => text.toList
  | .traceLine (.instr (.cLui rd imm6)) =>
    "c.lui ".toList ++ (abiName rd.toNat).toList ++ ", 0x".toList ++ digits 16 (traceImm20 imm6)
  | .dump a w =>
    "no-decode at 0x".toList ++ digits 16 a.toNat ++ ": 0x".toList ++ digitsPadded 16 (w.width / 4) (wordNat w)
      ++ " 0b".toList ++ digitsPadded 2 w.width (wordNat w)

end Sys2Proof.Machine
end

