-- ==== Sys2Proof/Safety.lean ====
section
/-! DEFINITION. The terms claims use: consistent results, well-typed blocks, the invariant of a state between calls, and the
contract a rule, a group and a rule set keep. -/

namespace Sys2Proof.Machine

/-- The invariants of a returned DecodeResult that speak of the record alone (10_state.md R21 items 1, 2, 4 and 5; items 4
and 5 are decision D17, log 14). -/
abbrev DecodeResult.Consistent (r : DecodeResult) : Prop :=
  (r.consumedBytes = .zero ↔ r.terminalKind = .noDecode) ∧
  (r.terminalKind = .noDecode → r = .failed) ∧
  (r.nextAction = .goOn → r.terminalKind = .none) ∧
  (r.nextAction = .stop → r.terminalKind ≠ .none)

/-- The block `b'` is `b` with statements and temporaries appended (10_state.md R20). -/
abbrev IRBlock.Extends (b' b : IRBlock) : Prop :=
  b.stmts <+: b'.stmts ∧ b.tmps <+: b'.tmps

/-- A statement's expression has the type its place has (42_register_model_ir.md R84; a temporary's own type for `WrTmp`). -/
def IRStmt.typed (b : IRBlock) : IRStmt → Bool
  | .put _ e => typeOf b e == some .i64
  | .wrTmp t e => (typeOf b e).isSome && typeOf b e == b.tmps[t]?

/-- Every statement of the block is typed. -/
def IRBlock.wellTyped (b : IRBlock) : Bool := b.stmts.all (IRStmt.typed b)

/-- No call is in progress: there is no word and the working state is as at reset (10_state.md R13, R23, R24). -/
abbrev State.AtRest (s : State) : Prop :=
  s.instrWord = none ∧ s.result = .defaults ∧ s.dispatcher = .init ∧ s.ruleIndex = 0

/-- The guest state is as the surrounding system keeps it: register 0's location holds zero (10_state.md R15), and the
environment is in canonical form. -/
abbrev GuestState.Inv (g : GuestState) : Prop :=
  g.regs[0] = 0 ∧ Cells.sorted g.env = true

/-- The invariant of a state between calls. -/
structure State.Inv (s : State) : Prop where
  bufferWf : s.buffer.wf = true
  guestInv : s.guest.Inv
  atRest : s.AtRest
  outputConsistent : ∀ r, s.output = some r → r.Consistent
  blockTyped : s.block.wellTyped = true

/-- The call on `w` as its group is asked: the working state made fresh, the word read, the group selected (45_driver.md
R110 to R113). -/
def State.inCall (s : State) (w : InstrWord) : State :=
  (s.startCall.withWord w).enterGroup (quadrantOf w.path)

/-- What a call in progress keeps whatever rule fires: the inputs, the outputs of earlier calls and the guest state. -/
abbrev State.SameSurroundings (s' s : State) : Prop :=
  s'.buffer = s.buffer ∧ s'.offset = s.offset ∧ s'.guestAddress = s.guestAddress ∧
  s'.diagnosticsEnabled = s.diagnosticsEnabled ∧ s'.output = s.output ∧ s'.guest = s.guest

/-- The expressions the helpers give a rule on block `b` (43_quadrant_dispatch.md R100 item 3): a constant (`mkConst64`), a
register read (`getRegister`), a temporary of the registry (`newTemp`). DEDUCED, safe, log 22. -/
def IRExpr.BuiltOn (b : IRBlock) : IRExpr → Prop
  | .const64 _ => True
  | .get off ty => ∃ n, getRegister n = .ok (.get off ty)
  | .rdTmp t => t < b.tmps.length

/-- `b.Builds b'`: the block `b'` is one a rule can make of `b` through the register model and the IR helpers only (43_quadrant_dispatch.md R100
item 3, 42_register_model_ir.md R79 to R88). Writes go through `putRegister` and `putPC`, so each is in range and of type
`I64` (R84, R85); the other statements define temporaries of the registry. DEDUCED, safe, log 22. -/
inductive IRBlock.Builds (b : IRBlock) : IRBlock → Prop where
  | start : Builds b b
  | putRegister {b₁ b₂ : IRBlock} {n : Nat} {e : IRExpr} (before : Builds b b₁) (expr : e.BuiltOn b₁)
      (write : putRegister b₁ n e = .ok b₂) : Builds b b₂
  | putPC {b₁ b₂ : IRBlock} {e : IRExpr} (before : Builds b b₁) (expr : e.BuiltOn b₁)
      (write : putPC b₁ e = .ok b₂) : Builds b b₂
  | newTemp {b₁ : IRBlock} (ty : IRType) (before : Builds b b₁) : Builds b (newTemp b₁ ty).2
  | define {b₁ : IRBlock} {t : Temp} {e : IRExpr} (before : Builds b b₁) (temp : t < b₁.tmps.length)
      (expr : e.BuiltOn b₁) : Builds b (append b₁ (.wrTmp t e))

/-- The statements of a block after those it began with. -/
def IRBlock.since (b' b : IRBlock) : List IRStmt := b'.stmts.drop b.stmts.length

/-- What a group or rule leaves behind when it answers match (43_quadrant_dispatch.md R94, R100): `consumedBytes` by the
group (item 1), a consistent result that is no decode failure (item 2), statements appended through the helpers only and
none removed (item 3), the program-counter write among them when the rule stops (item 5, decision D23) and not when it
continues (R94), and one trace line, which only a call without diagnostics may lack (item 6, R107; log 15). Item 4, reading
fields through `extractField`, says how a rule is written and not what it does (log 22). -/
structure MatchKept (q : Quadrant) (s s' : State) : Prop where
  surroundings : s'.SameSurroundings s
  consumed : s'.result.consumedBytes = consumedOf q
  consistent : s'.result.Consistent
  built : s.block.Builds s'.block
  stopWritesPC : s'.result.nextAction = .stop → ∃ e, .put .pc e ∈ s'.block.since s.block
  continueLeavesPC : s'.result.nextAction = .goOn → ∀ e, .put .pc e ∉ s'.block.since s.block
  traced : ∃ line, s'.textOut = s.textOut ++ [.traceLine line] ∨ (s.diagnosticsEnabled = false ∧ s'.textOut = s.textOut)

/-- What a group leaves behind when it answers no-match (43_quadrant_dispatch.md R93): everything but the walk's index. -/
abbrev NoMatchKept (s s' : State) : Prop := { s' with ruleIndex := s.ruleIndex } = s

/-- The contract of a rule in group `q`: whenever it fires on a fresh result it completes and leaves what a match may
(43_quadrant_dispatch.md R100). -/
def Rule.KeepsContract (q : Quadrant) (r : Rule) : Prop :=
  ∀ word s, s.result = .defaults → r.fixed word = true → r.legal word = true →
    ∃ s', r.action word s = .next s' ∧ MatchKept q s s'

/-- The contract of group `q` (43_quadrant_dispatch.md R93, R94). -/
def Group.KeepsContract (q : Quadrant) (g : Group) : Prop :=
  ∀ word s, s.result = .defaults →
    ∃ a s', g word s = .next (a, s') ∧
      match a with
      | .matched => MatchKept q s s'
      | .noMatch => NoMatchKept s s'

/-- Every group of a rule set keeps its contract, whether or not its rules overlap (43_quadrant_dispatch.md R93, R94). What a
`RULESET` owes, non-overlap among it, is `RuleLists.Lawful`. -/
def RuleSet.KeepsContract (rs : RuleSet) : Prop := ∀ q, Group.KeepsContract q (rs q)

/-- Both rules claim the word: fixed bits and legality of each hold (43_quadrant_dispatch.md R99). -/
abbrev Rule.Overlaps (r r' : Rule) : Prop :=
  ∃ word, (r.fixed word = true ∧ r.legal word = true) ∧ r'.fixed word = true ∧ r'.legal word = true

/-- No two rules of a group claim one legal word (43_quadrant_dispatch.md R99). -/
def NonOverlapping (rules : List Rule) : Prop := rules.Pairwise fun r r' => ¬ r.Overlaps r'

/-- An action is given the word, the address, the block and the result, and no place in the list (43_quadrant_dispatch.md
R95): where the walk stands when it runs changes nothing but the index itself. -/
def Rule.IgnoresIndex (r : Rule) : Prop :=
  ∀ word s k, r.action word (s.passRules k) = andThen (r.action word s) fun s' => .next (s'.passRules k)

/-- What a `RULESET` owes (43_quadrant_dispatch.md R95, R99, R100): every rule of a group keeps the contract of an action and
reads no place in the list, and no two rules of a group overlap. The engine checks none of it. -/
structure RuleLists.Lawful (rules : RuleLists) : Prop where
  contract : ∀ q, ∀ r ∈ rules q, Rule.KeepsContract q r
  ignoresIndex : ∀ q, ∀ r ∈ rules q, r.IgnoresIndex
  nonOverlapping : ∀ q, NonOverlapping (rules q)

end Sys2Proof.Machine
end

