-- ==== Sys2Proof/Certificates/Slice0/Obligations.lean ====
section
/-! DEFINITION. The statements for the provers, in the order of the spec's files. A docstring names the rule, and, where a
statement rests on a decision the spec marks as its own or on a choice of the model, that decision or log entry. -/

open Sys2Proof Sys2Proof.Machine

/-! ## Encoding -/

/-- Every well-formed instruction, encoded and followed by any bytes, decodes to itself and leaves those bytes
(30_encoding.md R50, R53; the field positions are general knowledge GK2, log 19). -/
def Obligations.DecodeOfEncodedInstruction : Prop :=
  ∀ (i : Instr) (rest : List Byte), i.wf = true → decode ((encode i).bytes ++ rest) = .ok (i, rest)

/-- Bytes that decode have one meaning: the instruction is well-formed, and they begin with its encoding and go on with
what the decoder leaves (30_encoding.md R53, R61; GK2, log 19). -/
def Obligations.EncodeOfDecodedBytes : Prop :=
  ∀ (bytes rest : List Byte) (i : Instr), decode bytes = .ok (i, rest) →
    i.wf = true ∧ bytes = (encode i).bytes ++ rest

/-- A few words written out from the spec's tables (44_rule_c_lui.md R105, R108): three that fire and four that do not. -/
def Obligations.WrittenWordsDecode : Prop :=
  decodeTableWord 16 0b0111010100000101 = some (.cLui 10 33) ∧
  decodeTableWord 16 0b0110000010000101 = some (.cLui 1 1) ∧
  decodeTableWord 16 0b0111111111111101 = some (.cLui 31 63) ∧
  decodeTableWord 16 0b0111000000000101 = none ∧
  decodeTableWord 16 0b0111000100000101 = none ∧
  decodeTableWord 16 0b0110010100000001 = none ∧
  decodeTableWord 32 0b00000000000100000000010100010011 = none

/-- Exactly the words with `word & 0xE003 = 0x6001`, `rd` not 0 and not 2, and a nonzero immediate field fire, and they
fire as `c.lui` with those fields (30_encoding.md R53, 43_quadrant_dispatch.md R103; GK2, log 19). -/
def Obligations.CompressedWordFiresExactly : Prop :=
  ∀ (w : BitVec 16) (i : Instr),
    decodeWord (.compressed w) = some i ↔
      w &&& 0xE003#16 = 0x6001#16 ∧
      ∃ rd imm6, i = .cLui rd imm6 ∧
        rd.toNat = w.toNat / 128 % 32 ∧ imm6.toNat = w.toNat / 4096 % 2 * 32 + w.toNat / 4 % 32 ∧
        rd.toNat ≠ 0 ∧ rd.toNat ≠ 2 ∧ imm6.toNat ≠ 0

/-- The encoding's quadrant table (30_encoding.md R48): the low two bits of the word tell width, length and group. -/
def Obligations.QuadrantTellsWidthAndGroup : Prop :=
  ∀ (m : Memory) (off : Nat) (w : InstrWord), lengthDetect m off = some w →
    (w.path.toNat % 4 = 0 → w.width = 16 ∧ w.length = 2 ∧ quadrantOf w.path = .q00) ∧
    (w.path.toNat % 4 = 1 → w.width = 16 ∧ w.length = 2 ∧ quadrantOf w.path = .q01) ∧
    (w.path.toNat % 4 = 2 → w.width = 16 ∧ w.length = 2 ∧ quadrantOf w.path = .q10) ∧
    (w.path.toNat % 4 = 3 → w.width = 32 ∧ w.length = 4 ∧ quadrantOf w.path = .q11)

/-! ## Bit-field extractor and sign-extend unit -/

/-- The extractor's value, bit by bit and as arithmetic, at every width (40_bitfield_signext.md R63; that the definition is
the same at widths beyond 16 and 32 is the spec's own derivation). -/
def Obligations.ExtractFieldIsTheSlice : Prop :=
  ∀ (n : Nat) (w : BitVec n) (h l : Nat) (ok : l ≤ h ∧ h < n),
    (extractField w h l ok).toNat = w.toNat / 2 ^ l % 2 ^ (h - l + 1) ∧
    (∀ k, k ≤ h - l → (extractField w h l ok).getLsbD k = w.getLsbD (l + k)) ∧
    (l = 0 → h = n - 1 → (extractField w h l ok).toNat = w.toNat)

/-- The extractor's result is below `2^(h-l+1)` and does not depend on bits outside `l..h` (40_bitfield_signext.md R65). -/
def Obligations.ExtractFieldIgnoresOtherBits : Prop :=
  ∀ (n : Nat) (w : BitVec n) (h l : Nat) (ok : l ≤ h ∧ h < n),
    (extractField w h l ok).toNat < 2 ^ (h - l + 1) ∧
    ∀ w' : BitVec n, (∀ k, l ≤ k → k ≤ h → w'.getLsbD k = w.getLsbD k) →
      extractField w' h l ok = extractField w h l ok

/-- A dynamic extraction answers the field inside its precondition and aborts outside it (40_bitfield_signext.md R64; the
abort is the spec's decision D11). -/
def Obligations.DynamicExtractChecksRange : Prop :=
  ∀ (n : Nat) (w : BitVec n) (h l : Nat),
    (∀ ok : l ≤ h ∧ h < n, extractFieldDyn w h l = .ok (extractField w h l ok)) ∧
    (h < l ∨ n ≤ h → extractFieldDyn w h l = .error .extractRange)

/-- DOC0's property of the sign-extend unit (40_bitfield_signext.md R68). -/
def Obligations.SignExtendIsTwosComplement : Prop :=
  (∀ (n v : Nat), 2 ≤ n → n ≤ 63 → v < 2 ^ n →
    ∃ r, signExtend (BitVec.ofNat 64 v) n = .ok r ∧ r.toInt = (BitVec.ofNat n v).toInt) ∧
  signExtend 0b111 3 = .ok (BitVec.ofInt 64 (-1)) ∧ signExtend 0b011 3 = .ok 3

/-- Bit `width-1` is replicated into all higher bits, whatever the input's bits there (40_bitfield_signext.md R66; that
those bits are ignored is the spec's decision D12). -/
def Obligations.SignExtendReplicatesTheSignBit : Prop :=
  ∀ (value : Word) (width : Nat), 1 < width → width < 64 →
    ∃ r, signExtend value width = .ok r ∧
      ∀ k, k < 64 → r.getLsbD k = if k < width then value.getLsbD k else value.getLsbD (width - 1)

/-- Widths outside 2..63 abort, widths inside are accepted, and the rule set uses 18 (40_bitfield_signext.md R67). -/
def Obligations.SignExtendChecksWidth : Prop :=
  (∀ (value : Word) (width : Nat), width ≤ 1 ∨ 64 ≤ width → signExtend value width = .error .signExtendWidth) ∧
  (∀ (value : Word) (width : Nat), 1 < width → width < 64 → ∃ r, signExtend value width = .ok r) ∧
  (∀ imm6 : BitVec 6, cLuiSimm imm6 = signExtend (cLuiUimm18 imm6) 18)

/-! ## The buffer and the length detector -/

/-- One fetch unit is its two bytes, the lower offset less significant, at any offset (20_memory.md R33, R37; the order
inside a unit is the spec's decision D3, log 14). -/
def Obligations.FetchUnitIsLittleEndian : Prop :=
  ∀ (m : Memory) (off : Nat) (u : FetchUnit),
    bufRead16 m off = some u ↔
      ∃ lo hi, m.read off = some lo ∧ m.read (off + 1) = some hi ∧ u.toNat = lo.toNat + 256 * hi.toNat

/-- A 32-bit word is its four bytes, little-endian (20_memory.md R34; decision D3, log 14). -/
def Obligations.FullWordIsFourBytes : Prop :=
  ∀ (m : Memory) (off : Nat) (w : BitVec 32), lengthDetect m off = some (.full w) →
    ∃ b0 b1 b2 b3 : Byte, m.read off = some b0 ∧ m.read (off + 1) = some b1 ∧
      m.read (off + 2) = some b2 ∧ m.read (off + 3) = some b3 ∧
      w.toNat = b0.toNat + 2 ^ 8 * b1.toNat + 2 ^ 16 * b2.toNat + 2 ^ 24 * b3.toNat

/-- The length detector (41_length_detect.md R72, R73): a first unit whose low bits are not `0b11` is the instruction, 2
bytes; otherwise the next unit is read and the two are combined into a 32-bit word, 4 bytes, whose low bits are `0b11`. -/
def Obligations.LengthFromLowBits : Prop :=
  ∀ (m : Memory) (off : Nat) (unit0 : FetchUnit), bufRead16 m off = some unit0 →
    (unit0.toNat % 4 ≠ 3 → lengthDetect m off = some (.compressed unit0) ∧ (InstrWord.compressed unit0).length = 2) ∧
    (unit0.toNat % 4 = 3 → ∀ unit1, bufRead16 m (off + 2) = some unit1 →
      ∃ word : BitVec 32, lengthDetect m off = some (.full word) ∧ (InstrWord.full word).length = 4 ∧
        word.toNat = unit0.toNat + 2 ^ 16 * unit1.toNat ∧ word.toNat % 4 = 3)

/-- Bytes put into the buffer are the bytes read from it, so a call sees the buffer as it is then (20_memory.md R32, R45,
the latter the spec's own derivation). -/
def Obligations.LoadedBytesRead : Prop :=
  ∀ (m : Memory) (a : Nat) (bytes : List Byte) (k : Nat), k < bytes.length →
    (m.load a bytes).read (a + k) = bytes[k]?

/-- Two buffers in canonical form that read alike are the same data (the canonical form is the model's, log 3). -/
def Obligations.CanonicalBuffersAreEqual : Prop :=
  ∀ m m' : Memory, m.wf = true → m'.wf = true → (∀ a, m.read a = m'.read a) → m = m'

/-! ## Register model and IR helpers -/

/-- `getRegister` reads any register 0..31, register 0 like any other, and aborts beyond (42_register_model_ir.md R79). -/
def Obligations.GetRegisterReadsInRange : Prop :=
  (∀ (n : Nat) (hn : n < 32), getRegister n = .ok (.get (regOffset ⟨n, hn⟩) .i64)) ∧
  (∀ n : Nat, 31 < n → getRegister n = .error .registerRange)

/-- `putRegister` appends one write, register 0's like any other, and aborts on the range first, then on the type
(42_register_model_ir.md R80; the order of the two aborts is the spec's decision D27; log 13 for an unregistered
temporary). -/
def Obligations.PutRegisterAppendsOrAborts : Prop :=
  ∀ (b : IRBlock) (n : Nat) (e : IRExpr),
    (31 < n → putRegister b n e = .error .registerRange) ∧
    (n < 32 → typeOf b e ≠ some .i64 → putRegister b n e = .error .registerWriteType) ∧
    (∀ hn : n < 32, typeOf b e = some .i64 →
      putRegister b n e = .ok ⟨b.stmts ++ [.put (regOffset ⟨n, hn⟩) e], b.tmps⟩)

/-- `putPC` appends one write of the program counter or aborts on the type (42_register_model_ir.md R81; the operation's
name and form are the spec's decision D13; that an unregistered temporary has no type and so aborts is the model's choice,
log 13). -/
def Obligations.PutPCAppendsOrAborts : Prop :=
  ∀ (b : IRBlock) (e : IRExpr),
    (typeOf b e ≠ some .i64 → putPC b e = .error .registerWriteType) ∧
    (typeOf b e = some .i64 → putPC b e = .ok ⟨b.stmts ++ [.put pcOffset e], b.tmps⟩)

/-- `mkConst64(v)` is `Const64(v mod 2^64)`, a signed value by its two's complement bits (42_register_model_ir.md R86). -/
def Obligations.ConstantIsModuloTwoToTheSixtyFour : Prop :=
  (∀ v : Int, ∃ c : Word, mkConst64 v = .const64 c ∧ (c.toNat : Int) = v % 2 ^ 64) ∧
  mkConst64 (-126976) = .const64 0xFFFFFFFFFFFE1000

/-- `newTemp` answers the next free index, whose type is then the one asked for, and no earlier temporary changes
(42_register_model_ir.md R87; the numbering is the spec's decision D13). -/
def Obligations.NewTempIsNextFreeIndex : Prop :=
  ∀ (b : IRBlock) (ty : IRType),
    (newTemp b ty).1 = b.tmps.length ∧ typeOf (newTemp b ty).2 (.rdTmp (newTemp b ty).1) = some ty ∧
    (newTemp b ty).2.stmts = b.stmts ∧
    ∀ t, t < b.tmps.length → typeOf (newTemp b ty).2 (.rdTmp t) = typeOf b (.rdTmp t)

/-- The 33 guest-state offsets are pairwise distinct, so a write of one register and then of the program counter leaves
every other register as it was, and register 0 always (10_state.md R19, 42_register_model_ir.md R90; the meaning of IR is
decision D13, the symbolic form of an offset D16, log 10). -/
def Obligations.OffsetsDoNotAlias : Prop :=
  ∀ (g : GuestState) (n : Fin 32) (v w : Word),
    ∃ g', runStmts [.put (regOffset n) (.const64 v), .put pcOffset (.const64 w)] g = some g' ∧
      g'.read pcOffset = w ∧ (n ≠ 0 → g'.read (regOffset n) = v) ∧
      g'.read (regOffset 0) = g.read (regOffset 0) ∧
      ∀ k : Fin 32, k ≠ n → g'.read (regOffset k) = g.read (regOffset k)

/-! ## Meaning of IR -/

/-- Statements run in block order (42_register_model_ir.md R90, the spec's decision D13): a block run in two parts. -/
def Obligations.StatementsRunInOrder : Prop :=
  ∀ (xs ys : List IRStmt) (g : GuestState), runStmts (xs ++ ys) g = (runStmts xs g).bind (runStmts ys)

/-- Running one register or program-counter write of any expression that has a value changes that location alone, and a
write of register 0 changes nothing; a constant's value is itself, a read's is what the location holds, and a write of an
expression without a value has no meaning (42_register_model_ir.md R90, the spec's decision D13). -/
def Obligations.PutChangesOneLocation : Prop :=
  (∀ (g : GuestState) (c : Word), evalExpr g (.const64 c) = some c) ∧
  (∀ (g : GuestState) (off : Offset) (ty : IRType), evalExpr g (.get off ty) = some (g.read off)) ∧
  ∀ (g : GuestState) (off : Offset) (e : IRExpr),
    (evalExpr g e = none → runStmt g (.put off e) = none) ∧
    ∀ v, evalExpr g e = some v →
      ∃ g', runStmt g (.put off e) = some g' ∧ g'.env = g.env ∧
        (off ≠ .reg 0 → g'.read off = v) ∧ (off = .reg 0 → g' = g) ∧
        ∀ off', off' ≠ off → g'.read off' = g.read off'

/-- Running the definition of a temporary as any expression that has a value makes the temporary read that value and changes
nothing else; a temporary of an environment with no definitions has no value, and a definition as an expression without a
value has no meaning (42_register_model_ir.md R90, the spec's decision D13). -/
def Obligations.DefinitionChangesOneTemporary : Prop :=
  (∀ (g : GuestState) (t : Temp), g.env = [] → evalExpr g (.rdTmp t) = none) ∧
  ∀ (g : GuestState) (t : Temp) (e : IRExpr),
    (evalExpr g e = none → runStmt g (.wrTmp t e) = none) ∧
    ∀ v, evalExpr g e = some v →
      ∃ g', runStmt g (.wrTmp t e) = some g' ∧ evalExpr g' (.rdTmp t) = some v ∧
        (∀ t', t' ≠ t → evalExpr g' (.rdTmp t') = evalExpr g (.rdTmp t')) ∧
        g'.regs = g.regs ∧ g'.pc = g.pc ∧ ∀ off, g'.read off = g.read off

/-- Whatever IR the block holds, running it keeps register 0's location at zero and the environment canonical
(42_register_model_ir.md R90, the spec's own derivation; log 9). -/
def Obligations.RunningABlockKeepsRegisterZero : Prop :=
  ∀ s t : State, s.guest.Inv → s.runBlock = some t → t.guest.Inv

/-! ## Groups and dispatch -/

/-- First legal match wins, and rejection or mismatch passes on to the next rule with no effect but the walk's index
(43_quadrant_dispatch.md R98). -/
def Obligations.FirstLegalMatchFires : Prop :=
  ∀ (rules : List Rule) (word : BitVec 32) (s : State),
    (∀ pre r post, rules = pre ++ r :: post →
      (∀ p ∈ pre, ¬ (p.fixed word = true ∧ p.legal word = true)) → r.fixed word = true → r.legal word = true →
      Group.ofRules rules word s = andThen (r.action word (s.passRules pre.length)) fun s' => .next (.matched, s')) ∧
    ((∀ r ∈ rules, ¬ (r.fixed word = true ∧ r.legal word = true)) →
      Group.ofRules rules word s = .next (.noMatch, s.passRules rules.length))

/-- Where no two rules of a list claim one legal word, reordering the list does not change which rule fires on a word, or
that none does; reordering the groups of a lawful `RULESET` changes no outcome of any call; and the decoder's walk over
patterns finds the same instruction (43_quadrant_dispatch.md R99, the last sentences of which are the spec's own
derivation; decision D23 and logs 15 and 22 are in what `RuleLists.Lawful` asks of an action). -/
def Obligations.OrderIrrelevantWithoutOverlap : Prop :=
  (∀ (rules rules' : List Rule) (word : BitVec 32) (s : State), NonOverlapping rules → rules.Perm rules' →
    (∃ r ∈ rules, r.fixed word = true ∧ r.legal word = true ∧ ∃ k k',
      Group.ofRules rules word s = r.fire word (s.passRules k) ∧
      Group.ofRules rules' word s = r.fire word (s.passRules k')) ∨
    ((∀ r ∈ rules, ¬ (r.fixed word = true ∧ r.legal word = true)) ∧
      Group.ofRules rules word s = .next (.noMatch, s.passRules rules.length) ∧
      Group.ofRules rules' word s = .next (.noMatch, s.passRules rules.length))) ∧
  (∀ (rules rules' : RuleLists) (s : State), rules.Lawful → (∀ q, (rules q).Perm (rules' q)) →
    decodeCall (RuleSet.ofRules rules) s = decodeCall (RuleSet.ofRules rules') s) ∧
  ∀ (ps qs : List Pattern) (word : BitVec 32), NonOverlapping (ps.map ruleOf) → ps.Perm qs →
    firstMatch ps word = firstMatch qs word

/-- The dispatcher starts in `Init`, makes one transition, to the group of `extractField(word, 1, 0)`, and asks that group
only (43_quadrant_dispatch.md R91). -/
def Obligations.OnlySelectedGroupIsAsked : Prop :=
  ∀ (rs rs' : RuleSet) (w : InstrWord) (s : State),
    s.startCall.dispatcher = .init ∧ (s.inCall w).dispatcher = .group (quadrantOf w.path) ∧
    dispatch rs w (s.startCall.withWord w) = rs (quadrantOf w.path) w.path (s.inCall w) ∧
    (rs (quadrantOf w.path) = rs' (quadrantOf w.path) →
      dispatchCall rs w (s.startCall.withWord w) = dispatchCall rs' w (s.startCall.withWord w))

/-- Rules that keep the contract make a group that keeps it, so a lawful `RULESET` makes four such groups, and in it at most
one rule of a group claims a word (43_quadrant_dispatch.md R93, R94, R98, R99, R100; the clause on `stop` is the spec's
decision D23, that on consistency D17, that on the helpers log 22, that on the trace line log 15). -/
def Obligations.LawfulRulesMakeALawfulGroup : Prop :=
  (∀ (q : Quadrant) (rules : List Rule),
    (∀ r ∈ rules, Rule.KeepsContract q r) → Group.KeepsContract q (Group.ofRules rules)) ∧
  ∀ rules : RuleLists, rules.Lawful → RuleSet.KeepsContract (RuleSet.ofRules rules) ∧
    ∀ (q : Quadrant) (word : BitVec 32), ((rules q).filter fun r => r.fixed word && r.legal word).length ≤ 1

/-- `RULESET` of this hardware is lawful: its rules keep the contract, read no place in the list and do not overlap; so its
groups keep theirs (43_quadrant_dispatch.md R95, R99, R100, R101; decisions D17, D18, D23; logs 15, 22). -/
def Obligations.MinimalRuleSetIsLawful : Prop :=
  ruleSet = RuleSet.ofRules ruleLists ∧ ruleLists.Lawful ∧ RuleSet.KeepsContract ruleSet

/-! ## c.lui -/

/-- The action of `c.lui` on any call in progress: it completes, appends the one register write of the sign-extended
immediate, sets `consumedBytes = 2`, may add its trace line, and leaves everything else (44_rule_c_lui.md R105; the shape
of the IR is decision D14, the positions GK2, the trace line log 15). -/
def Obligations.LoadUpperAppendsOneWrite : Prop :=
  ∀ (rd : BitVec 5) (imm6 : BitVec 6) (s : State), (Instr.cLui rd imm6).wf = true →
    exec (.cLui rd imm6) s = .next
      { s with
        block :=
          { stmts := s.block.stmts ++ [.put (regOffset rd.toFin) (.const64 (BitVec.ofInt 64 (imm6.toInt * 4096)))]
            tmps := s.block.tmps }
        result := { s.result with consumedBytes := .two }
        textOut := s.textOut ++ traceLines s.diagnosticsEnabled s.guestAddress (.instr (.cLui rd imm6)) }

/-- One whole call on the bytes of a well-formed `c.lui` at an aligned address: success, two statements appended, nothing
else changed (45_driver.md R119, 44_rule_c_lui.md R105; decisions D6, D14, GK2; the trace line log 15; that the working
result rests at `DEFAULTS`, a clause of `AtRest`, is the model's choice, log 8). -/
def Obligations.LoadUpperCallCompletes : Prop :=
  ∀ (s : State) (rd : BitVec 5) (imm6 : BitVec 6), (Instr.cLui rd imm6).wf = true →
    lengthDetect s.buffer s.offset = some (encode (.cLui rd imm6)) → s.guestAddress.toNat % 4 = 0 →
    ∃ t, step s = .next t ∧
      t.block.stmts = s.block.stmts ++
        [.put (regOffset rd.toFin) (.const64 (BitVec.ofInt 64 (imm6.toInt * 4096))),
         .put pcOffset (.const64 (s.guestAddress + 2))] ∧
      t.block.tmps = s.block.tmps ∧
      t.output = some { nextAction := .goOn, consumedBytes := .two, terminalKind := .none, hint := .none } ∧
      t.AtRest ∧ t.buffer = s.buffer ∧ t.offset = s.offset ∧ t.guestAddress = s.guestAddress ∧
      t.diagnosticsEnabled = s.diagnosticsEnabled ∧ t.guest = s.guest ∧
      (s.diagnosticsEnabled = true → t.textOut = s.textOut ++ [.traceLine (.instr (.cLui rd imm6))]) ∧
      (t.textOut = s.textOut ∨ t.textOut = s.textOut ++ [.traceLine (.instr (.cLui rd imm6))])

/-- What the two statements of a `c.lui` call mean when the surrounding system runs them: `x[rd] <- simm; pc <-
guestAddress + 2`, nothing else (44_rule_c_lui.md R105, 42_register_model_ir.md R90; decisions D13, D14, GK2). -/
def Obligations.LoadUpperMeaning : Prop :=
  ∀ (s t : State) (rd : BitVec 5) (imm6 : BitVec 6) (g : GuestState), (Instr.cLui rd imm6).wf = true →
    lengthDetect s.buffer s.offset = some (encode (.cLui rd imm6)) → step s = .next t →
    ∃ g', runStmts (t.block.stmts.drop s.block.stmts.length) g = some g' ∧
      (g'.read (regOffset rd.toFin)).toInt = imm6.toInt * 4096 ∧
      g'.read pcOffset = s.guestAddress + 2 ∧ g'.env = g.env ∧
      ∀ off, off ≠ regOffset rd.toFin → off ≠ pcOffset → g'.read off = g.read off

/-- A word with the fixed bits of `c.lui` and a reserved operand value fires nothing: the call ends in the decode failure,
with no write of a register appended (44_rule_c_lui.md R106, 30_encoding.md R54; GK2, log 19). -/
def Obligations.RejectedLoadUpperFails : Prop :=
  ∀ (s : State) (rd : BitVec 5) (imm6 : BitVec 6), rd = 0 ∨ rd = 2 ∨ imm6 = 0 →
    lengthDetect s.buffer s.offset = some (encode (.cLui rd imm6)) → s.guestAddress.toNat % 4 = 0 →
    ∃ t, step s = .next t ∧ t.output = some .failed ∧
      t.block.stmts = s.block.stmts ++ [.put pcOffset (.const64 s.guestAddress)]

/-! ## The driver -/

/-- Every call starts from `DEFAULTS` and a fresh working state: what an earlier call left there does not matter
(45_driver.md R110). -/
def Obligations.EveryCallStartsFromDefaults : Prop :=
  DecodeResult.defaults = { nextAction := .goOn, consumedBytes := .four, terminalKind := .none, hint := .none } ∧
  (∀ s : State, s.startCall.result = .defaults) ∧
  ∀ (rs : RuleSet) (s : State) (w : Option InstrWord) (r : DecodeResult) (d : DispatcherState) (k : Nat),
    decodeCall rs { s with instrWord := w, result := r, dispatcher := d, ruleIndex := k } = decodeCall rs s

/-- A call at an address that is not a multiple of 4 aborts, for every rule set and for 16-bit words too
(20_memory.md R36). -/
def Obligations.MisalignedAddressAborts : Prop :=
  ∀ (rs : RuleSet) (s : State) (w : InstrWord), lengthDetect s.buffer s.offset = some w →
    s.guestAddress.toNat % 4 ≠ 0 → decodeCall rs s = .fault (.abort .misalignedGuestAddress)

/-- A match with `continue` appends the program-counter write of `guestAddress + consumedBytes`, modulo 2^64, after all the
rule appended, and returns the result as the rule left it (45_driver.md R114; the modulus is decision D6, log 14). -/
def Obligations.ContinueAdvancesProgramCounter : Prop :=
  ∀ s : State, s.result.nextAction = .goOn →
    ∃ t, finishMatch s = .next t ∧ t.output = some s.result ∧ t.block.tmps = s.block.tmps ∧ t.guest = s.guest ∧
      t.textOut = s.textOut ∧
      ∃ pc : Word, t.block.stmts = s.block.stmts ++ [.put pcOffset (.const64 pc)] ∧
        pc.toNat = (s.guestAddress.toNat + s.result.consumedBytes.bytes) % 2 ^ 64

/-- A match with `stop` appends nothing further and returns the result as the rule left it; no call of this hardware takes
that path (45_driver.md R115). -/
def Obligations.StopAppendsNothingFurther : Prop :=
  (∀ s : State, s.result.nextAction = .stop →
    ∃ t, finishMatch s = .next t ∧ t.block = s.block ∧ t.output = some s.result) ∧
  ∀ s t : State, step s = .next t → ∀ r, t.output = some r → r.nextAction = .stop → r = .failed

/-- A no-match answer with a changed result aborts; a rule set of ordered rule lists aborts so only where a rule's own
action does (45_driver.md R117). -/
def Obligations.ChangedResultWithNoMatchAborts : Prop :=
  (∀ s : State, s.result ≠ .defaults → finishNoMatch s = .fault (.abort .protocolViolation)) ∧
  ∀ (rules : RuleLists) (s : State),
    (∀ q, ∀ r ∈ rules q, ∀ word s', r.action word s' ≠ .fault (.abort .protocolViolation)) →
    decodeCall (RuleSet.ofRules rules) s ≠ .fault (.abort .protocolViolation)

/-- Where no rule of the word's group fires, the one statement appended rewinds the program counter to `guestAddress` and
the result is `stop`, 0, `no-decode` (45_driver.md R116). -/
def Obligations.FailedDecodeRewinds : Prop :=
  ∀ (s : State) (w : InstrWord), lengthDetect s.buffer s.offset = some w → s.guestAddress.toNat % 4 = 0 →
    decodeWord w = none →
    ∃ t, step s = .next t ∧
      t.block.stmts = s.block.stmts ++ [.put pcOffset (.const64 s.guestAddress)] ∧ t.block.tmps = s.block.tmps ∧
      t.output = some { nextAction := .stop, consumedBytes := .zero, terminalKind := .noDecode, hint := .none } ∧
      t.buffer = s.buffer ∧ t.offset = s.offset ∧ t.guestAddress = s.guestAddress ∧
      t.diagnosticsEnabled = s.diagnosticsEnabled ∧ t.guest = s.guest

/-- Running what a failed call appended puts the program counter back at the instruction and changes nothing else
(60_exceptions.md R131, R132, 42_register_model_ir.md R90; decision D13). -/
def Obligations.FailedDecodeMeaning : Prop :=
  ∀ (s t : State) (g : GuestState), step s = .next t → t.output = some .failed →
    runStmts (t.block.stmts.drop s.block.stmts.length) g = some { g with pc := s.guestAddress }

/-- A failed call dumps the failing word exactly when diagnostics are enabled, and the flag changes neither the result nor
the block of any call (45_driver.md R118; the dump's address is the spec's decision D15). -/
def Obligations.DiagnosticsChangeOnlyText : Prop :=
  (∀ (s t : State) (w : InstrWord), lengthDetect s.buffer s.offset = some w → step s = .next t →
    t.output = some .failed →
    t.textOut = s.textOut ++ (if s.diagnosticsEnabled then [.dump s.guestAddress w] else [])) ∧
  ∀ (s t : State) (flag : Bool), step s = .next t →
    ∃ t', step { s with diagnosticsEnabled := flag } = .next t' ∧ t'.output = t.output ∧ t'.block = t.block

/-- Every word outside quadrant `01` fails: Group00, Group10 and Group11 are empty, and no 32-bit word decodes
(43_quadrant_dispatch.md R102, the spec's own derivation from R101, decision D18). -/
def Obligations.EmptyGroupsAlwaysFail : Prop :=
  ∀ (s : State) (w : InstrWord), lengthDetect s.buffer s.offset = some w → s.guestAddress.toNat % 4 = 0 →
    w.path.toNat % 4 ≠ 1 → ∃ t, step s = .next t ∧ t.output = some .failed

/-- A step runs the decoded instruction: where the bytes at `offset` decode to `i` and the address is aligned, the step is
the meaning of `i` on the call in progress, past some number of rules, and then the driver's finish of a match
(45_driver.md R119; log 18). -/
def Obligations.StepRunsTheDecodedInstruction : Prop :=
  ∀ (s : State) (bytes rest : List Byte) (i : Instr),
    (∀ k, k < bytes.length → s.buffer.read (s.offset + k) = bytes[k]?) → decode bytes = .ok (i, rest) →
    s.guestAddress.toNat % 4 = 0 →
    ∃ w k, lengthDetect s.buffer s.offset = some w ∧
      step s = andThen (exec i ((s.inCall w).passRules k)) finishMatch

/-- The next step after a caller's `withFetchWord` reads, aligned, a word that decodes as the table word does (log 2). -/
def Obligations.PresentedWordIsDecodedNext : Prop :=
  ∀ (s : State) (nbits n : Nat),
    ∃ w, lengthDetect (s.withFetchWord nbits n).buffer (s.withFetchWord nbits n).offset = some w ∧
      (s.withFetchWord nbits n).guestAddress.toNat % 4 = 0 ∧ decodeWord w = decodeTableWord nbits n

/-! ## Outcomes -/

/-- A call has no step exactly where a byte it needs is missing: one of the first two, or, when the first unit's low bits
are `0b11`, one of the next two (20_memory.md R32, the spec's decision D4; log 4). -/
def Obligations.NoStepExactlyWhenBytesAreMissing : Prop :=
  ∀ s : State,
    step s = .fault .noStep ↔
      s.buffer.read s.offset = none ∨ s.buffer.read (s.offset + 1) = none ∨
      ((∃ lo, s.buffer.read s.offset = some lo ∧ lo.toNat % 4 = 3) ∧
        (s.buffer.read (s.offset + 2) = none ∨ s.buffer.read (s.offset + 3) = none))

/-- The outcome of a step by cases, in the order of priority: no step, then misalignment, then `Done`; no other fault and no
refusal (60_exceptions.md R128, R130; the first is the spec's own derivation, the second rests on decision D19). -/
def Obligations.OutcomesInPriorityOrder : Prop :=
  ∀ s : State,
    (lengthDetect s.buffer s.offset = none → step s = .fault .noStep) ∧
    (lengthDetect s.buffer s.offset ≠ none → s.guestAddress.toNat % 4 ≠ 0 →
      step s = .fault (.abort .misalignedGuestAddress)) ∧
    (lengthDetect s.buffer s.offset ≠ none → s.guestAddress.toNat % 4 = 0 → ∃ t, step s = .next t)

/-- For every rule set that keeps the contract: a successful decode reports 2 bytes for a 16-bit word and 4 for a 32-bit
word, a failed one 0 (45_driver.md R120). -/
def Obligations.ConsumedBytesMatchTheLength : Prop :=
  ∀ (rs : RuleSet) (s t : State) (w : InstrWord), RuleSet.KeepsContract rs →
    lengthDetect s.buffer s.offset = some w → decodeCall rs s = .next t →
    ∃ r, t.output = some r ∧
      (r.terminalKind ≠ .noDecode → r.consumedBytes.bytes = w.length) ∧
      (r.terminalKind = .noDecode → r.consumedBytes.bytes = 0)

/-- For every rule set whose groups keep the contract (overlapping or not, so for every lawful `RULESET`), every call on
resident bytes at an aligned address ends `Done`, with a consistent result, the block extended by at least one statement,
nothing of the call left in the working state, and the inputs and the guest state untouched (10_state.md R13, R20, R21,
R29; items 4 and 5 of R21 are decision D17; that the working result rests at `DEFAULTS`, a clause of `AtRest`, is the
model's choice, log 8). -/
def Obligations.EveryLawfulRuleSetIsSound : Prop :=
  ∀ (rs : RuleSet) (s : State), RuleSet.KeepsContract rs →
    lengthDetect s.buffer s.offset ≠ none → s.guestAddress.toNat % 4 = 0 →
    ∃ t r, decodeCall rs s = .next t ∧ t.output = some r ∧ r.Consistent ∧
      t.block.Extends s.block ∧ s.block.stmts.length < t.block.stmts.length ∧ t.AtRest ∧
      t.buffer = s.buffer ∧ t.offset = s.offset ∧ t.guestAddress = s.guestAddress ∧
      t.diagnosticsEnabled = s.diagnosticsEnabled ∧ t.guest = s.guest

/-- Under every rule set whose groups keep the contract (so under every lawful `RULESET`), what a completed call appends:
every write has type `I64`; a call that continues writes the program counter exactly once, with the next address, as its
last statement; any other call writes it too (43_quadrant_dispatch.md R94, R100, 45_driver.md R114 to R116,
42_register_model_ir.md R84; decisions D6 and D23, log 22 for what a rule's helpers can build). -/
def Obligations.LawfulCallsAppendOrderlyIR : Prop :=
  ∀ (rs : RuleSet) (s t : State), RuleSet.KeepsContract rs → decodeCall rs s = .next t →
    ∃ r, t.output = some r ∧
      (∀ off e, .put off e ∈ t.block.since s.block → typeOf t.block e = some .i64) ∧
      (r.nextAction = .goOn → ∃ body, (∀ e, .put .pc e ∉ body) ∧
        t.block.since s.block =
          body ++ [.put pcOffset (.const64 (s.guestAddress + BitVec.ofNat 64 r.consumedBytes.bytes))]) ∧
      (r.nextAction = .stop → ∃ e, .put pcOffset e ∈ t.block.since s.block)

/-! ## Invariant, determinism, sequences of calls -/

/-- Every step keeps the invariant: canonical buffer and environment, register 0's location zero, no call in progress, a
consistent result at the port, a well-typed block (10_state.md R13, R15, R21, 42_register_model_ir.md R84; logs 3, 8, 9,
decision D17). -/
def Obligations.StepKeepsTheInvariant : Prop :=
  ∀ s t : State, s.Inv → step s = .next t → t.Inv

/-- The state after reset meets the invariant (logs 3, 5, 6, 7, 8). -/
def Obligations.ResetMeetsTheInvariant : Prop := State.reset.Inv

/-- What the spec gives for reset (70_reset_and_hazards.md R143, the spec's decision D9): the dispatcher in `Init`, no word,
the first rule of the list, no valid result, register 0 zero. -/
def Obligations.ResetStateIsIdle : Prop :=
  State.reset.dispatcher = .init ∧ State.reset.instrWord = none ∧ State.reset.ruleIndex = 0 ∧
  State.reset.output = none ∧ State.reset.guest.read (regOffset 0) = 0

/-- The outcome is a function of the bytes read and the guest address: two calls that agree on those give the same fault, or
the same result and the same statements appended, whatever else differs, the bytes after a compressed instruction among it
(45_driver.md R121, 41_length_detect.md R76; decisions D5, D22). -/
def Obligations.OutcomeDependsOnlyOnBytesRead : Prop :=
  ∀ s s' : State, s.guestAddress = s'.guestAddress →
    s.buffer.read s.offset = s'.buffer.read s'.offset →
    s.buffer.read (s.offset + 1) = s'.buffer.read (s'.offset + 1) →
    (∀ lo, s.buffer.read s.offset = some lo → lo.toNat % 4 = 3 →
      s.buffer.read (s.offset + 2) = s'.buffer.read (s'.offset + 2) ∧
      s.buffer.read (s.offset + 3) = s'.buffer.read (s'.offset + 3)) →
    (∀ f, step s = .fault f → step s' = .fault f) ∧
    (∀ t, step s = .next t → ∃ t' new, step s' = .next t' ∧ t'.output = t.output ∧
      t.block = { stmts := s.block.stmts ++ new, tmps := s.block.tmps } ∧
      t'.block = { stmts := s'.block.stmts ++ new, tmps := s'.block.tmps })

/-- Decoding the same buffer and offset again gives the same result and the same statements, and the call left the buffer as
it was (20_memory.md R39). -/
def Obligations.CallAgainRepeatsTheOutcome : Prop :=
  ∀ s t : State, step s = .next t →
    t.buffer = s.buffer ∧
    ∃ u new, step t = .next u ∧ u.output = t.output ∧ u.buffer = s.buffer ∧
      t.block.stmts = s.block.stmts ++ new ∧ u.block.stmts = t.block.stmts ++ new

/-- Calls one after another on one block: its final content is the content before them and then, in call order, what each
call appends to an empty block (20_memory.md R42). -/
def Obligations.BlockIsConcatenationOfCalls : Prop :=
  ∀ (calls : List Call) (s t : State), issueAll calls s = .next t →
    t.buffer = s.buffer ∧ t.guest = s.guest ∧ t.block.tmps = s.block.tmps ∧
    ∃ news : List (List IRStmt), news.length = calls.length ∧
      (∀ (k : Nat) (c : Call), calls[k]? = some c →
        ∃ u, issue { s with block := .empty } c = .next u ∧ news[k]? = some u.block.stmts) ∧
      t.block.stmts = s.block.stmts ++ news.flatten

/-- After a successful call at `A` the block ends with the program-counter write of `A + 2`, and a call there aborts
(70_reset_and_hazards.md R150; the alignment kept at 4 is decision D1, log 14). -/
def Obligations.NextCallAfterTwoByteInstructionAborts : Prop :=
  ∀ (s t : State) (c : Call), step s = .next t → t.output ≠ some .failed → c.guestAddress = s.guestAddress + 2 →
    t.block.stmts.getLast? = some (.put pcOffset (.const64 c.guestAddress)) ∧
    (lengthDetect t.buffer c.offset ≠ none → issue t c = .fault (.abort .misalignedGuestAddress))

/-- The codes at a port tell the values apart (60_exceptions.md R129, the spec's decisions D8, D24). -/
def Obligations.PortCodesAreDistinct : Prop :=
  (∀ a b : NextAction, a.code = b.code → a = b) ∧ (∀ a b : ConsumedBytes, a.code = b.code → a = b) ∧
  (∀ a b : TerminalKind, a.code = b.code → a = b) ∧ (∀ a b : Hint, a.code = b.code → a = b) ∧
  (∀ a b : AbortReason, a.code = b.code → a = b)
end

