-- ==== Sys2Proof/Laws/Decode.lean ====
section
/-! SUPPORT. What the extractor, the length detector and the pattern walk can answer. -/

namespace Sys2Proof

theorem extractField_toNat {n : Nat} (w : BitVec n) (h l : Nat) (ok : l ≤ h ∧ h < n) :
    (extractField w h l ok).toNat = (w.toNat >>> l) % 2 ^ (h - l + 1) := by
  simp [extractField]

/-- The extractor is the library's slice of the same bits. -/
theorem extractField_eq_extractLsb {n : Nat} (w : BitVec n) (h l : Nat) (ok : l ≤ h ∧ h < n) :
    extractField w h l ok = w.extractLsb h l := rfl

/-- What the length detector answers, over any reader of units. -/
theorem lengthDetectWith_eq_some {rd : Nat → Option FetchUnit} {off : Nat} {w : InstrWord} :
    lengthDetectWith rd off = some w ↔
      ∃ u0, rd off = some u0 ∧
        ((isCompressed u0 = true ∧ w = .compressed u0) ∨
         (isCompressed u0 = false ∧ ∃ u1, rd (off + 2) = some u1 ∧ w = .full (pairUnits u0 u1))) := by
  unfold lengthDetectWith
  cases rd off with
  | none => simp
  | some u0 =>
    by_cases hc : isCompressed u0 = true
    · simpa [hc] using eq_comm
    · simp only [Bool.not_eq_true] at hc
      cases rd (off + 2) with
      | none => simp [hc]
      | some u1 => simpa [hc] using eq_comm

/-- The low two bits of a word, as a number. -/
theorem extractField_low_toNat {n : Nat} (w : BitVec n) (ok : 0 ≤ 1 ∧ 1 < n) :
    (extractField w 1 0 ok).toNat = w.toNat % 4 := by
  simp [extractField]

/-- A unit is compressed exactly where its low bits are not `0b11`. -/
theorem isCompressed_iff (u : FetchUnit) : isCompressed u = true ↔ u.toNat % 4 ≠ 3 := by
  rw [isCompressed, ← extractField_low_toNat u (by decide)]
  generalize extractField u 1 0 = b
  revert b
  decide

/-- The quadrant of a word, by its value modulo 4. -/
theorem quadrantOf_eq_iff (w : BitVec 32) :
    (quadrantOf w = .q00 ↔ w.toNat % 4 = 0) ∧ (quadrantOf w = .q01 ↔ w.toNat % 4 = 1) ∧
    (quadrantOf w = .q10 ↔ w.toNat % 4 = 2) ∧ (quadrantOf w = .q11 ↔ w.toNat % 4 = 3) := by
  rw [quadrantOf, ← extractField_low_toNat w (by decide)]
  generalize extractField w 1 0 = b
  revert b
  decide

/-- The value of two units paired. -/
theorem pairUnits_toNat (u0 u1 : FetchUnit) : (pairUnits u0 u1).toNat = u0.toNat + 2 ^ 16 * u1.toNat := by
  rw [pairUnits, BitVec.toNat_append, ← Nat.shiftLeft_add_eq_or_of_lt u0.isLt, Nat.shiftLeft_eq]
  omega

/-- The value of a unit's two bytes. -/
theorem fetchUnit_toNat (lo hi : Byte) : (fetchUnit lo hi).toNat = lo.toNat + 256 * hi.toNat := by
  rw [fetchUnit, BitVec.toNat_append, ← Nat.shiftLeft_add_eq_or_of_lt lo.isLt, Nat.shiftLeft_eq]
  omega

/-- A walk that finds an instruction found a pattern whose fixed bits and legality hold. -/
theorem firstMatch_eq_some {ps : List Pattern} {word : BitVec 32} {i : Instr} (h : firstMatch ps word = some i) :
    ∃ p ∈ ps, p.fixed word = true ∧ p.legal word = true ∧ i = p.instr word := by
  induction ps with
  | nil => simp [firstMatch] at h
  | cons p ps ih =>
    by_cases hp : (p.fixed word && p.legal word) = true
    · simp only [firstMatch, hp, if_true, Option.some.injEq] at h
      simp only [Bool.and_eq_true] at hp
      exact ⟨p, by simp, hp.1, hp.2, h.symm⟩
    · simp only [firstMatch, hp] at h
      obtain ⟨p', hm, hrest⟩ := ih h
      exact ⟨p', by simp [hm], hrest⟩

/-- A walk that finds nothing was rejected, or not matched, by every pattern. -/
theorem firstMatch_eq_none {ps : List Pattern} {word : BitVec 32} :
    firstMatch ps word = none ↔ ∀ p ∈ ps, (p.fixed word && p.legal word) = false := by
  induction ps with
  | nil => simp [firstMatch]
  | cons p ps ih =>
    rw [List.forall_mem_cons, ← ih, firstMatch]
    cases p.fixed word && p.legal word <;> simp

end Sys2Proof
end

