-- ==== Sys2Proof/Laws/State.lean ====
section
/-! SUPPORT. One lemma per field per update of State, each true by rfl. -/

namespace Sys2Proof.Machine

@[simp] theorem State.startCall_buffer (s : State) :
    (s.startCall).buffer = s.buffer := rfl
@[simp] theorem State.startCall_offset (s : State) :
    (s.startCall).offset = s.offset := rfl
@[simp] theorem State.startCall_guestAddress (s : State) :
    (s.startCall).guestAddress = s.guestAddress := rfl
@[simp] theorem State.startCall_diagnosticsEnabled (s : State) :
    (s.startCall).diagnosticsEnabled = s.diagnosticsEnabled := rfl
@[simp] theorem State.startCall_instrWord (s : State) :
    (s.startCall).instrWord = none := rfl
@[simp] theorem State.startCall_result (s : State) :
    (s.startCall).result = .defaults := rfl
@[simp] theorem State.startCall_dispatcher (s : State) :
    (s.startCall).dispatcher = .init := rfl
@[simp] theorem State.startCall_ruleIndex (s : State) :
    (s.startCall).ruleIndex = 0 := rfl
@[simp] theorem State.startCall_block (s : State) :
    (s.startCall).block = s.block := rfl
@[simp] theorem State.startCall_output (s : State) :
    (s.startCall).output = s.output := rfl
@[simp] theorem State.startCall_textOut (s : State) :
    (s.startCall).textOut = s.textOut := rfl
@[simp] theorem State.startCall_guest (s : State) :
    (s.startCall).guest = s.guest := rfl

@[simp] theorem State.withWord_buffer (s : State) (w : InstrWord) :
    (s.withWord w).buffer = s.buffer := rfl
@[simp] theorem State.withWord_offset (s : State) (w : InstrWord) :
    (s.withWord w).offset = s.offset := rfl
@[simp] theorem State.withWord_guestAddress (s : State) (w : InstrWord) :
    (s.withWord w).guestAddress = s.guestAddress := rfl
@[simp] theorem State.withWord_diagnosticsEnabled (s : State) (w : InstrWord) :
    (s.withWord w).diagnosticsEnabled = s.diagnosticsEnabled := rfl
@[simp] theorem State.withWord_instrWord (s : State) (w : InstrWord) :
    (s.withWord w).instrWord = some w := rfl
@[simp] theorem State.withWord_result (s : State) (w : InstrWord) :
    (s.withWord w).result = s.result := rfl
@[simp] theorem State.withWord_dispatcher (s : State) (w : InstrWord) :
    (s.withWord w).dispatcher = s.dispatcher := rfl
@[simp] theorem State.withWord_ruleIndex (s : State) (w : InstrWord) :
    (s.withWord w).ruleIndex = s.ruleIndex := rfl
@[simp] theorem State.withWord_block (s : State) (w : InstrWord) :
    (s.withWord w).block = s.block := rfl
@[simp] theorem State.withWord_output (s : State) (w : InstrWord) :
    (s.withWord w).output = s.output := rfl
@[simp] theorem State.withWord_textOut (s : State) (w : InstrWord) :
    (s.withWord w).textOut = s.textOut := rfl
@[simp] theorem State.withWord_guest (s : State) (w : InstrWord) :
    (s.withWord w).guest = s.guest := rfl

@[simp] theorem State.enterGroup_buffer (s : State) (q : Quadrant) :
    (s.enterGroup q).buffer = s.buffer := rfl
@[simp] theorem State.enterGroup_offset (s : State) (q : Quadrant) :
    (s.enterGroup q).offset = s.offset := rfl
@[simp] theorem State.enterGroup_guestAddress (s : State) (q : Quadrant) :
    (s.enterGroup q).guestAddress = s.guestAddress := rfl
@[simp] theorem State.enterGroup_diagnosticsEnabled (s : State) (q : Quadrant) :
    (s.enterGroup q).diagnosticsEnabled = s.diagnosticsEnabled := rfl
@[simp] theorem State.enterGroup_instrWord (s : State) (q : Quadrant) :
    (s.enterGroup q).instrWord = s.instrWord := rfl
@[simp] theorem State.enterGroup_result (s : State) (q : Quadrant) :
    (s.enterGroup q).result = s.result := rfl
@[simp] theorem State.enterGroup_dispatcher (s : State) (q : Quadrant) :
    (s.enterGroup q).dispatcher = .group q := rfl
@[simp] theorem State.enterGroup_ruleIndex (s : State) (q : Quadrant) :
    (s.enterGroup q).ruleIndex = 0 := rfl
@[simp] theorem State.enterGroup_block (s : State) (q : Quadrant) :
    (s.enterGroup q).block = s.block := rfl
@[simp] theorem State.enterGroup_output (s : State) (q : Quadrant) :
    (s.enterGroup q).output = s.output := rfl
@[simp] theorem State.enterGroup_textOut (s : State) (q : Quadrant) :
    (s.enterGroup q).textOut = s.textOut := rfl
@[simp] theorem State.enterGroup_guest (s : State) (q : Quadrant) :
    (s.enterGroup q).guest = s.guest := rfl

@[simp] theorem State.passRules_buffer (s : State) (k : Nat) :
    (s.passRules k).buffer = s.buffer := rfl
@[simp] theorem State.passRules_offset (s : State) (k : Nat) :
    (s.passRules k).offset = s.offset := rfl
@[simp] theorem State.passRules_guestAddress (s : State) (k : Nat) :
    (s.passRules k).guestAddress = s.guestAddress := rfl
@[simp] theorem State.passRules_diagnosticsEnabled (s : State) (k : Nat) :
    (s.passRules k).diagnosticsEnabled = s.diagnosticsEnabled := rfl
@[simp] theorem State.passRules_instrWord (s : State) (k : Nat) :
    (s.passRules k).instrWord = s.instrWord := rfl
@[simp] theorem State.passRules_result (s : State) (k : Nat) :
    (s.passRules k).result = s.result := rfl
@[simp] theorem State.passRules_dispatcher (s : State) (k : Nat) :
    (s.passRules k).dispatcher = s.dispatcher := rfl
@[simp] theorem State.passRules_ruleIndex (s : State) (k : Nat) :
    (s.passRules k).ruleIndex = s.ruleIndex + k := rfl
@[simp] theorem State.passRules_block (s : State) (k : Nat) :
    (s.passRules k).block = s.block := rfl
@[simp] theorem State.passRules_output (s : State) (k : Nat) :
    (s.passRules k).output = s.output := rfl
@[simp] theorem State.passRules_textOut (s : State) (k : Nat) :
    (s.passRules k).textOut = s.textOut := rfl
@[simp] theorem State.passRules_guest (s : State) (k : Nat) :
    (s.passRules k).guest = s.guest := rfl

@[simp] theorem State.withBlock_buffer (s : State) (b : IRBlock) :
    (s.withBlock b).buffer = s.buffer := rfl
@[simp] theorem State.withBlock_offset (s : State) (b : IRBlock) :
    (s.withBlock b).offset = s.offset := rfl
@[simp] theorem State.withBlock_guestAddress (s : State) (b : IRBlock) :
    (s.withBlock b).guestAddress = s.guestAddress := rfl
@[simp] theorem State.withBlock_diagnosticsEnabled (s : State) (b : IRBlock) :
    (s.withBlock b).diagnosticsEnabled = s.diagnosticsEnabled := rfl
@[simp] theorem State.withBlock_instrWord (s : State) (b : IRBlock) :
    (s.withBlock b).instrWord = s.instrWord := rfl
@[simp] theorem State.withBlock_result (s : State) (b : IRBlock) :
    (s.withBlock b).result = s.result := rfl
@[simp] theorem State.withBlock_dispatcher (s : State) (b : IRBlock) :
    (s.withBlock b).dispatcher = s.dispatcher := rfl
@[simp] theorem State.withBlock_ruleIndex (s : State) (b : IRBlock) :
    (s.withBlock b).ruleIndex = s.ruleIndex := rfl
@[simp] theorem State.withBlock_block (s : State) (b : IRBlock) :
    (s.withBlock b).block = b := rfl
@[simp] theorem State.withBlock_output (s : State) (b : IRBlock) :
    (s.withBlock b).output = s.output := rfl
@[simp] theorem State.withBlock_textOut (s : State) (b : IRBlock) :
    (s.withBlock b).textOut = s.textOut := rfl
@[simp] theorem State.withBlock_guest (s : State) (b : IRBlock) :
    (s.withBlock b).guest = s.guest := rfl

@[simp] theorem State.withResult_buffer (s : State) (r : DecodeResult) :
    (s.withResult r).buffer = s.buffer := rfl
@[simp] theorem State.withResult_offset (s : State) (r : DecodeResult) :
    (s.withResult r).offset = s.offset := rfl
@[simp] theorem State.withResult_guestAddress (s : State) (r : DecodeResult) :
    (s.withResult r).guestAddress = s.guestAddress := rfl
@[simp] theorem State.withResult_diagnosticsEnabled (s : State) (r : DecodeResult) :
    (s.withResult r).diagnosticsEnabled = s.diagnosticsEnabled := rfl
@[simp] theorem State.withResult_instrWord (s : State) (r : DecodeResult) :
    (s.withResult r).instrWord = s.instrWord := rfl
@[simp] theorem State.withResult_result (s : State) (r : DecodeResult) :
    (s.withResult r).result = r := rfl
@[simp] theorem State.withResult_dispatcher (s : State) (r : DecodeResult) :
    (s.withResult r).dispatcher = s.dispatcher := rfl
@[simp] theorem State.withResult_ruleIndex (s : State) (r : DecodeResult) :
    (s.withResult r).ruleIndex = s.ruleIndex := rfl
@[simp] theorem State.withResult_block (s : State) (r : DecodeResult) :
    (s.withResult r).block = s.block := rfl
@[simp] theorem State.withResult_output (s : State) (r : DecodeResult) :
    (s.withResult r).output = s.output := rfl
@[simp] theorem State.withResult_textOut (s : State) (r : DecodeResult) :
    (s.withResult r).textOut = s.textOut := rfl
@[simp] theorem State.withResult_guest (s : State) (r : DecodeResult) :
    (s.withResult r).guest = s.guest := rfl

@[simp] theorem State.emit_buffer (s : State) (ts : List TextOutput) :
    (s.emit ts).buffer = s.buffer := rfl
@[simp] theorem State.emit_offset (s : State) (ts : List TextOutput) :
    (s.emit ts).offset = s.offset := rfl
@[simp] theorem State.emit_guestAddress (s : State) (ts : List TextOutput) :
    (s.emit ts).guestAddress = s.guestAddress := rfl
@[simp] theorem State.emit_diagnosticsEnabled (s : State) (ts : List TextOutput) :
    (s.emit ts).diagnosticsEnabled = s.diagnosticsEnabled := rfl
@[simp] theorem State.emit_instrWord (s : State) (ts : List TextOutput) :
    (s.emit ts).instrWord = s.instrWord := rfl
@[simp] theorem State.emit_result (s : State) (ts : List TextOutput) :
    (s.emit ts).result = s.result := rfl
@[simp] theorem State.emit_dispatcher (s : State) (ts : List TextOutput) :
    (s.emit ts).dispatcher = s.dispatcher := rfl
@[simp] theorem State.emit_ruleIndex (s : State) (ts : List TextOutput) :
    (s.emit ts).ruleIndex = s.ruleIndex := rfl
@[simp] theorem State.emit_block (s : State) (ts : List TextOutput) :
    (s.emit ts).block = s.block := rfl
@[simp] theorem State.emit_output (s : State) (ts : List TextOutput) :
    (s.emit ts).output = s.output := rfl
@[simp] theorem State.emit_textOut (s : State) (ts : List TextOutput) :
    (s.emit ts).textOut = s.textOut ++ ts := rfl
@[simp] theorem State.emit_guest (s : State) (ts : List TextOutput) :
    (s.emit ts).guest = s.guest := rfl

@[simp] theorem State.traceRule_buffer (s : State) (line : TraceLine) :
    (s.traceRule line).buffer = s.buffer := rfl
@[simp] theorem State.traceRule_offset (s : State) (line : TraceLine) :
    (s.traceRule line).offset = s.offset := rfl
@[simp] theorem State.traceRule_guestAddress (s : State) (line : TraceLine) :
    (s.traceRule line).guestAddress = s.guestAddress := rfl
@[simp] theorem State.traceRule_diagnosticsEnabled (s : State) (line : TraceLine) :
    (s.traceRule line).diagnosticsEnabled = s.diagnosticsEnabled := rfl
@[simp] theorem State.traceRule_instrWord (s : State) (line : TraceLine) :
    (s.traceRule line).instrWord = s.instrWord := rfl
@[simp] theorem State.traceRule_result (s : State) (line : TraceLine) :
    (s.traceRule line).result = s.result := rfl
@[simp] theorem State.traceRule_dispatcher (s : State) (line : TraceLine) :
    (s.traceRule line).dispatcher = s.dispatcher := rfl
@[simp] theorem State.traceRule_ruleIndex (s : State) (line : TraceLine) :
    (s.traceRule line).ruleIndex = s.ruleIndex := rfl
@[simp] theorem State.traceRule_block (s : State) (line : TraceLine) :
    (s.traceRule line).block = s.block := rfl
@[simp] theorem State.traceRule_output (s : State) (line : TraceLine) :
    (s.traceRule line).output = s.output := rfl
@[simp] theorem State.traceRule_textOut (s : State) (line : TraceLine) :
    (s.traceRule line).textOut = s.textOut ++ traceLines s.diagnosticsEnabled s.guestAddress line := rfl
@[simp] theorem State.traceRule_guest (s : State) (line : TraceLine) :
    (s.traceRule line).guest = s.guest := rfl

@[simp] theorem State.dumpWord_buffer (s : State) :
    (s.dumpWord).buffer = s.buffer := rfl
@[simp] theorem State.dumpWord_offset (s : State) :
    (s.dumpWord).offset = s.offset := rfl
@[simp] theorem State.dumpWord_guestAddress (s : State) :
    (s.dumpWord).guestAddress = s.guestAddress := rfl
@[simp] theorem State.dumpWord_diagnosticsEnabled (s : State) :
    (s.dumpWord).diagnosticsEnabled = s.diagnosticsEnabled := rfl
@[simp] theorem State.dumpWord_instrWord (s : State) :
    (s.dumpWord).instrWord = s.instrWord := rfl
@[simp] theorem State.dumpWord_result (s : State) :
    (s.dumpWord).result = s.result := rfl
@[simp] theorem State.dumpWord_dispatcher (s : State) :
    (s.dumpWord).dispatcher = s.dispatcher := rfl
@[simp] theorem State.dumpWord_ruleIndex (s : State) :
    (s.dumpWord).ruleIndex = s.ruleIndex := rfl
@[simp] theorem State.dumpWord_block (s : State) :
    (s.dumpWord).block = s.block := rfl
@[simp] theorem State.dumpWord_output (s : State) :
    (s.dumpWord).output = s.output := rfl
@[simp] theorem State.dumpWord_textOut (s : State) :
    (s.dumpWord).textOut = s.textOut ++ dumpLines s.diagnosticsEnabled s.guestAddress s.instrWord := rfl
@[simp] theorem State.dumpWord_guest (s : State) :
    (s.dumpWord).guest = s.guest := rfl

@[simp] theorem State.retire_buffer (s : State) (r : DecodeResult) :
    (s.retire r).buffer = s.buffer := rfl
@[simp] theorem State.retire_offset (s : State) (r : DecodeResult) :
    (s.retire r).offset = s.offset := rfl
@[simp] theorem State.retire_guestAddress (s : State) (r : DecodeResult) :
    (s.retire r).guestAddress = s.guestAddress := rfl
@[simp] theorem State.retire_diagnosticsEnabled (s : State) (r : DecodeResult) :
    (s.retire r).diagnosticsEnabled = s.diagnosticsEnabled := rfl
@[simp] theorem State.retire_instrWord (s : State) (r : DecodeResult) :
    (s.retire r).instrWord = none := rfl
@[simp] theorem State.retire_result (s : State) (r : DecodeResult) :
    (s.retire r).result = .defaults := rfl
@[simp] theorem State.retire_dispatcher (s : State) (r : DecodeResult) :
    (s.retire r).dispatcher = .init := rfl
@[simp] theorem State.retire_ruleIndex (s : State) (r : DecodeResult) :
    (s.retire r).ruleIndex = 0 := rfl
@[simp] theorem State.retire_block (s : State) (r : DecodeResult) :
    (s.retire r).block = s.block := rfl
@[simp] theorem State.retire_output (s : State) (r : DecodeResult) :
    (s.retire r).output = some r := rfl
@[simp] theorem State.retire_textOut (s : State) (r : DecodeResult) :
    (s.retire r).textOut = s.textOut := rfl
@[simp] theorem State.retire_guest (s : State) (r : DecodeResult) :
    (s.retire r).guest = s.guest := rfl

@[simp] theorem State.withGuest_buffer (s : State) (g : GuestState) :
    (s.withGuest g).buffer = s.buffer := rfl
@[simp] theorem State.withGuest_offset (s : State) (g : GuestState) :
    (s.withGuest g).offset = s.offset := rfl
@[simp] theorem State.withGuest_guestAddress (s : State) (g : GuestState) :
    (s.withGuest g).guestAddress = s.guestAddress := rfl
@[simp] theorem State.withGuest_diagnosticsEnabled (s : State) (g : GuestState) :
    (s.withGuest g).diagnosticsEnabled = s.diagnosticsEnabled := rfl
@[simp] theorem State.withGuest_instrWord (s : State) (g : GuestState) :
    (s.withGuest g).instrWord = s.instrWord := rfl
@[simp] theorem State.withGuest_result (s : State) (g : GuestState) :
    (s.withGuest g).result = s.result := rfl
@[simp] theorem State.withGuest_dispatcher (s : State) (g : GuestState) :
    (s.withGuest g).dispatcher = s.dispatcher := rfl
@[simp] theorem State.withGuest_ruleIndex (s : State) (g : GuestState) :
    (s.withGuest g).ruleIndex = s.ruleIndex := rfl
@[simp] theorem State.withGuest_block (s : State) (g : GuestState) :
    (s.withGuest g).block = s.block := rfl
@[simp] theorem State.withGuest_output (s : State) (g : GuestState) :
    (s.withGuest g).output = s.output := rfl
@[simp] theorem State.withGuest_textOut (s : State) (g : GuestState) :
    (s.withGuest g).textOut = s.textOut := rfl
@[simp] theorem State.withGuest_guest (s : State) (g : GuestState) :
    (s.withGuest g).guest = g := rfl

@[simp] theorem State.loadBuffer_buffer (s : State) (a : Nat) (bs : List Byte) :
    (s.loadBuffer a bs).buffer = s.buffer.load a bs := rfl
@[simp] theorem State.loadBuffer_offset (s : State) (a : Nat) (bs : List Byte) :
    (s.loadBuffer a bs).offset = s.offset := rfl
@[simp] theorem State.loadBuffer_guestAddress (s : State) (a : Nat) (bs : List Byte) :
    (s.loadBuffer a bs).guestAddress = s.guestAddress := rfl
@[simp] theorem State.loadBuffer_diagnosticsEnabled (s : State) (a : Nat) (bs : List Byte) :
    (s.loadBuffer a bs).diagnosticsEnabled = s.diagnosticsEnabled := rfl
@[simp] theorem State.loadBuffer_instrWord (s : State) (a : Nat) (bs : List Byte) :
    (s.loadBuffer a bs).instrWord = s.instrWord := rfl
@[simp] theorem State.loadBuffer_result (s : State) (a : Nat) (bs : List Byte) :
    (s.loadBuffer a bs).result = s.result := rfl
@[simp] theorem State.loadBuffer_dispatcher (s : State) (a : Nat) (bs : List Byte) :
    (s.loadBuffer a bs).dispatcher = s.dispatcher := rfl
@[simp] theorem State.loadBuffer_ruleIndex (s : State) (a : Nat) (bs : List Byte) :
    (s.loadBuffer a bs).ruleIndex = s.ruleIndex := rfl
@[simp] theorem State.loadBuffer_block (s : State) (a : Nat) (bs : List Byte) :
    (s.loadBuffer a bs).block = s.block := rfl
@[simp] theorem State.loadBuffer_output (s : State) (a : Nat) (bs : List Byte) :
    (s.loadBuffer a bs).output = s.output := rfl
@[simp] theorem State.loadBuffer_textOut (s : State) (a : Nat) (bs : List Byte) :
    (s.loadBuffer a bs).textOut = s.textOut := rfl
@[simp] theorem State.loadBuffer_guest (s : State) (a : Nat) (bs : List Byte) :
    (s.loadBuffer a bs).guest = s.guest := rfl

@[simp] theorem State.present_buffer (s : State) (c : Call) :
    (s.present c).buffer = s.buffer := rfl
@[simp] theorem State.present_offset (s : State) (c : Call) :
    (s.present c).offset = c.offset := rfl
@[simp] theorem State.present_guestAddress (s : State) (c : Call) :
    (s.present c).guestAddress = c.guestAddress := rfl
@[simp] theorem State.present_diagnosticsEnabled (s : State) (c : Call) :
    (s.present c).diagnosticsEnabled = c.diagnosticsEnabled := rfl
@[simp] theorem State.present_instrWord (s : State) (c : Call) :
    (s.present c).instrWord = s.instrWord := rfl
@[simp] theorem State.present_result (s : State) (c : Call) :
    (s.present c).result = s.result := rfl
@[simp] theorem State.present_dispatcher (s : State) (c : Call) :
    (s.present c).dispatcher = s.dispatcher := rfl
@[simp] theorem State.present_ruleIndex (s : State) (c : Call) :
    (s.present c).ruleIndex = s.ruleIndex := rfl
@[simp] theorem State.present_block (s : State) (c : Call) :
    (s.present c).block = s.block := rfl
@[simp] theorem State.present_output (s : State) (c : Call) :
    (s.present c).output = s.output := rfl
@[simp] theorem State.present_textOut (s : State) (c : Call) :
    (s.present c).textOut = s.textOut := rfl
@[simp] theorem State.present_guest (s : State) (c : Call) :
    (s.present c).guest = s.guest := rfl

@[simp] theorem State.withFetchWord_buffer (s : State) (nbits w : Nat) :
    (s.withFetchWord nbits w).buffer = s.buffer.load s.offset (tableBytes nbits w) := rfl
@[simp] theorem State.withFetchWord_offset (s : State) (nbits w : Nat) :
    (s.withFetchWord nbits w).offset = s.offset := rfl
@[simp] theorem State.withFetchWord_guestAddress (s : State) (nbits w : Nat) :
    (s.withFetchWord nbits w).guestAddress = s.guestAddress - BitVec.ofNat 64 (s.guestAddress.toNat % pcAlign) := rfl
@[simp] theorem State.withFetchWord_diagnosticsEnabled (s : State) (nbits w : Nat) :
    (s.withFetchWord nbits w).diagnosticsEnabled = s.diagnosticsEnabled := rfl
@[simp] theorem State.withFetchWord_instrWord (s : State) (nbits w : Nat) :
    (s.withFetchWord nbits w).instrWord = s.instrWord := rfl
@[simp] theorem State.withFetchWord_result (s : State) (nbits w : Nat) :
    (s.withFetchWord nbits w).result = s.result := rfl
@[simp] theorem State.withFetchWord_dispatcher (s : State) (nbits w : Nat) :
    (s.withFetchWord nbits w).dispatcher = s.dispatcher := rfl
@[simp] theorem State.withFetchWord_ruleIndex (s : State) (nbits w : Nat) :
    (s.withFetchWord nbits w).ruleIndex = s.ruleIndex := rfl
@[simp] theorem State.withFetchWord_block (s : State) (nbits w : Nat) :
    (s.withFetchWord nbits w).block = s.block := rfl
@[simp] theorem State.withFetchWord_output (s : State) (nbits w : Nat) :
    (s.withFetchWord nbits w).output = s.output := rfl
@[simp] theorem State.withFetchWord_textOut (s : State) (nbits w : Nat) :
    (s.withFetchWord nbits w).textOut = s.textOut := rfl
@[simp] theorem State.withFetchWord_guest (s : State) (nbits w : Nat) :
    (s.withFetchWord nbits w).guest = s.guest := rfl

/-! ## Walking a group -/

@[simp] theorem State.passRules_zero (s : State) : s.passRules 0 = s := rfl
@[simp] theorem State.passRules_passRules (s : State) (j k : Nat) : (s.passRules j).passRules k = s.passRules (j + k) := by
  simp [State.passRules, Nat.add_assoc]

/-! ## Updates of the IR block -/

@[simp] theorem append_stmts (b : IRBlock) (st : IRStmt) : (append b st).stmts = b.stmts ++ [st] := rfl
@[simp] theorem append_tmps (b : IRBlock) (st : IRStmt) : (append b st).tmps = b.tmps := rfl
@[simp] theorem newTemp_fst (b : IRBlock) (ty : IRType) : (newTemp b ty).1 = b.tmps.length := rfl
@[simp] theorem newTemp_stmts (b : IRBlock) (ty : IRType) : (newTemp b ty).2.stmts = b.stmts := rfl
@[simp] theorem newTemp_tmps (b : IRBlock) (ty : IRType) : (newTemp b ty).2.tmps = b.tmps ++ [ty] := rfl

end Sys2Proof.Machine
end

