-- ==== Sys2Proof/Laws/Ops.lean ====
section
/-! SUPPORT. What each register-model, IR and guest-state operation can do, said once. -/

namespace Sys2Proof.Machine

/-! ## Checked operations -/

@[simp] theorem conclude_ok (s : State) : conclude (.ok s) = .next s := rfl
@[simp] theorem conclude_error (r : AbortReason) : conclude (.error r) = .fault (.abort r) := rfl

theorem conclude_eq_next {x : Except AbortReason State} {t : State} (h : conclude x = .next t) : x = .ok t := by
  cases x with
  | ok s => cases h; rfl
  | error r => cases h

@[simp] theorem andThen_next {α β : Type} (a : α) (f : α → Host.Outcome β Fault Refusal) :
    andThen (.next a) f = f a := rfl
@[simp] theorem andThen_fault {α β : Type} (r : Fault) (f : α → Host.Outcome β Fault Refusal) :
    andThen (.fault r) f = .fault r := rfl
@[simp] theorem andThen_refused {α β : Type} (r : Refusal) (f : α → Host.Outcome β Fault Refusal) :
    andThen (.refused r) f = .refused r := rfl

/-- A sequence that goes on to a next state has gone on from one. -/
theorem andThen_eq_next {α β : Type} {x : Host.Outcome α Fault Refusal} {f : α → Host.Outcome β Fault Refusal} {b : β} :
    andThen x f = .next b ↔ ∃ a, x = .next a ∧ f a = .next b := by
  cases x <;> simp

/-- A checked sequence that succeeds has succeeded in its parts. -/
theorem checked_bind_eq_ok {α β : Type} {x : Except AbortReason α} {f : α → Except AbortReason β} {b : β} :
    (x >>= f) = .ok b ↔ ∃ a, x = .ok a ∧ f a = .ok b := by
  cases x <;> simp [bind, Except.bind]

/-! ## Constants -/

@[simp] theorem mkConst64_toNat (v : Word) : mkConst64 (v.toNat : Int) = .const64 v := by
  simp [mkConst64]

@[simp] theorem mkConst64_toInt (v : Word) : mkConst64 v.toInt = .const64 v := by
  simp [mkConst64]

@[simp] theorem typeOf_const64 (b : IRBlock) (v : Word) : typeOf b (.const64 v) = some .i64 := rfl

/-! ## Writes -/

/-- A constant write of the program counter always succeeds and appends one statement. -/
@[simp] theorem putPC_const64 (b : IRBlock) (v : Word) :
    putPC b (.const64 v) = .ok (append b (.put .pc (.const64 v))) := rfl

/-- A constant write of a register in range always succeeds and appends one statement. -/
theorem putRegister_const64 (b : IRBlock) (n : Nat) (hn : n < 32) (v : Word) :
    putRegister b n (.const64 v) = .ok (append b (.put (.reg ⟨n, hn⟩) (.const64 v))) := by
  simp [putRegister, hn, regOffset]

/-- What a register write that succeeds has done. -/
theorem putRegister_eq_ok {b b' : IRBlock} {n : Nat} {e : IRExpr} (h : putRegister b n e = .ok b') :
    ∃ hn : n < 32, typeOf b e = some .i64 ∧ b' = append b (.put (.reg ⟨n, hn⟩) e) := by
  unfold putRegister at h
  split at h
  · rename_i hn
    split at h
    · rename_i hty
      cases h
      exact ⟨hn, hty, rfl⟩
    · cases h
  · cases h

/-- What a program-counter write that succeeds has done. -/
theorem putPC_eq_ok {b b' : IRBlock} {e : IRExpr} (h : putPC b e = .ok b') :
    typeOf b e = some .i64 ∧ b' = append b (.put .pc e) := by
  unfold putPC at h
  split at h
  · rename_i hty
    cases h
    exact ⟨hty, rfl⟩
  · cases h

/-! ## Blocks built through the helpers -/

/-- An expression's type stays what it is while temporaries are added. -/
theorem typeOf_mono {b b' : IRBlock} {e : IRExpr} {ty : IRType} (h : b.tmps <+: b'.tmps) (ht : typeOf b e = some ty) :
    typeOf b' e = some ty := by
  cases e with
  | const64 v => exact ht
  | get off ty' => exact ht
  | rdTmp t =>
    obtain ⟨more, hm⟩ := h
    obtain ⟨hlt, hval⟩ := List.getElem?_eq_some_iff.1 (show b.tmps[t]? = some ty from ht)
    show b'.tmps[t]? = some ty
    rw [← hm, List.getElem?_append_left hlt]
    exact ht

/-- All that helpers can do to a block: statements and temporaries are added, and every write added has type `I64`. -/
theorem IRBlock.Builds.cases_of {b b' : IRBlock} (h : b.Builds b') :
    ∃ new, b'.stmts = b.stmts ++ new ∧ b.tmps <+: b'.tmps ∧
      ∀ off e, .put off e ∈ new → typeOf b' e = some .i64 := by
  induction h with
  | start => exact ⟨[], by simp, List.prefix_rfl, by simp⟩
  | putRegister _ _ write ih =>
    obtain ⟨new, hs, ht, hw⟩ := ih
    obtain ⟨hn, hty, rfl⟩ := putRegister_eq_ok write
    refine ⟨new ++ [_], by rw [append_stmts, hs, List.append_assoc], ht, fun off e hm => ?_⟩
    rcases List.mem_append.1 hm with hm | hm
    · exact typeOf_mono List.prefix_rfl (hw off e hm)
    · obtain ⟨-, rfl⟩ := IRStmt.put.inj (List.mem_singleton.1 hm)
      exact typeOf_mono List.prefix_rfl hty
  | putPC _ _ write ih =>
    obtain ⟨new, hs, ht, hw⟩ := ih
    obtain ⟨hty, rfl⟩ := putPC_eq_ok write
    refine ⟨new ++ [_], by rw [append_stmts, hs, List.append_assoc], ht, fun off e hm => ?_⟩
    rcases List.mem_append.1 hm with hm | hm
    · exact typeOf_mono List.prefix_rfl (hw off e hm)
    · obtain ⟨-, rfl⟩ := IRStmt.put.inj (List.mem_singleton.1 hm)
      exact typeOf_mono List.prefix_rfl hty
  | newTemp ty _ ih =>
    obtain ⟨new, hs, ht, hw⟩ := ih
    exact ⟨new, hs, ht.trans (List.prefix_append _ _),
      fun off e hm => typeOf_mono (List.prefix_append _ _) (hw off e hm)⟩
  | define _ _ _ ih =>
    obtain ⟨new, hs, ht, hw⟩ := ih
    refine ⟨new ++ [_], by rw [append_stmts, hs, List.append_assoc], ht, fun off e hm => ?_⟩
    rcases List.mem_append.1 hm with hm | hm
    · exact typeOf_mono List.prefix_rfl (hw off e hm)
    · cases List.mem_singleton.1 hm

/-- Helpers only append. -/
theorem IRBlock.Builds.extends {b b' : IRBlock} (h : b.Builds b') : b'.Extends b := by
  obtain ⟨new, hs, ht, -⟩ := h.cases_of
  exact ⟨⟨new, hs.symm⟩, ht⟩

@[simp] theorem IRBlock.since_self (b : IRBlock) : b.since b = [] := by simp [IRBlock.since]
@[simp] theorem IRBlock.since_append (b : IRBlock) (st : IRStmt) : (append b st).since b = [st] := by
  simp [IRBlock.since]

/-- A match appends to the block and removes nothing (10_state.md R20). -/
theorem MatchKept.appended {q : Quadrant} {s s' : State} (h : MatchKept q s s') : s'.block.Extends s.block :=
  h.built.extends

/-- One constant register write is built through the helpers. -/
theorem IRBlock.Builds.register {b b' : IRBlock} {n : Nat} {v : Int} (h : Machine.putRegister b n (mkConst64 v) = .ok b') :
    b.Builds b' := .putRegister (e := mkConst64 v) .start trivial h

/-! ## Text outputs -/

/-- A trace adds one line, which only a call without diagnostics may lack. -/
theorem State.traceRule_cases (s : State) (line : TraceLine) :
    (s.traceRule line).textOut = s.textOut ++ [.traceLine line] ∨
    (s.diagnosticsEnabled = false ∧ (s.traceRule line).textOut = s.textOut) := by
  cases hd : s.diagnosticsEnabled <;> cases hq : Config.traceLineWhenQuiet s.guestAddress line <;>
    simp [State.traceRule, State.emit, traceLines, hd, hq]

/-! ## Immediates -/

/-- The one sign extension the rule set makes is within the accepted widths. -/
theorem cLuiSimm_eq_ok (imm6 : BitVec 6) : cLuiSimm imm6 = .ok (signExtendValue (cLuiUimm18 imm6) 18) := rfl

/-! ## The meaning of an instruction, inverted -/

/-- What the action of `c.lui` has done when it completes: one statement, the result's length, text. -/
theorem execCLui_eq_next {rd : BitVec 5} {imm6 : BitVec 6} {s t : State} (h : execCLui rd imm6 s = .next t) :
    ∃ simm b, cLuiSimm imm6 = .ok simm ∧ putRegister s.block rd.toNat (mkConst64 simm.toInt) = .ok b ∧
      t = ((s.withBlock b).withResult { s.result with consumedBytes := .two }).traceRule (.instr (.cLui rd imm6)) := by
  obtain ⟨simm, h1, h⟩ := checked_bind_eq_ok.1 (conclude_eq_next h)
  obtain ⟨b, h2, h⟩ := checked_bind_eq_ok.1 h
  exact ⟨simm, b, h1, h2, (Except.ok.inj h).symm⟩

/-! ## Guest state -/

@[simp] theorem GuestState.read_reg_zero (g : GuestState) : g.read (.reg 0) = 0 := rfl
@[simp] theorem GuestState.write_reg_zero (g : GuestState) (v : Word) : g.write (.reg 0) v = g := rfl
@[simp] theorem GuestState.write_env (g : GuestState) (off : Offset) (v : Word) : (g.write off v).env = g.env := by
  cases off with
  | pc => rfl
  | reg n => unfold GuestState.write; split <;> (try split) <;> rfl

/-- A write of a location that keeps what is written reads back; register 0 still reads zero. -/
theorem GuestState.read_write_same (g : GuestState) (off : Offset) (v : Word) (h : off ≠ .reg 0) :
    (g.write off v).read off = v := by
  cases off with
  | pc => rfl
  | reg n =>
    have hn : n ≠ 0 := fun e => h (by rw [e])
    simp [GuestState.write, GuestState.read, hn]

/-- A write leaves every other location as it was. -/
theorem GuestState.read_write_other (g : GuestState) (off off' : Offset) (v : Word) (h : off' ≠ off) :
    (g.write off v).read off' = g.read off' := by
  cases off with
  | pc =>
    cases off' with
    | pc => exact absurd rfl h
    | reg n => rfl
  | reg n =>
    by_cases hn : n = 0
    · simp [GuestState.write, hn]
    · cases off' with
      | pc => simp [GuestState.write, GuestState.read, hn]
      | reg k =>
        have hk : (n : Nat) ≠ k := fun e => h (by rw [Fin.ext e])
        simp [GuestState.write, GuestState.read, hn, Vector.getElem_set_ne _ _ hk]

end Sys2Proof.Machine
end

