-- ==== Sys2Proof/Laws/Driver.lean ====
section
/-! SUPPORT. What a group, the dispatcher and the driver can do, said once. -/

namespace Sys2Proof.Machine

/-! ## Groups -/

/-- A group of rules that answers has walked past some rules and either fired the next or run out. -/
theorem Group.ofRules_cases (rules : List Rule) (word : BitVec 32) (s : State) :
    (∃ pre r post, rules = pre ++ r :: post ∧ (∀ p ∈ pre, (p.fixed word && p.legal word) = false) ∧
        r.fixed word = true ∧ r.legal word = true ∧
        Group.ofRules rules word s = r.fire word (s.passRules pre.length)) ∨
    ((∀ r ∈ rules, (r.fixed word && r.legal word) = false) ∧
        Group.ofRules rules word s = .next (.noMatch, s.passRules rules.length)) := by
  induction rules generalizing s with
  | nil => exact .inr ⟨by simp, rfl⟩
  | cons r rules ih =>
    by_cases hr : (r.fixed word && r.legal word) = true
    · refine .inl ⟨[], r, rules, rfl, by simp, ?_, ?_, ?_⟩
      · simp only [Bool.and_eq_true] at hr; exact hr.1
      · simp only [Bool.and_eq_true] at hr; exact hr.2
      · simp [Group.ofRules, hr]
    · simp only [Bool.not_eq_true] at hr
      have hstep : Group.ofRules (r :: rules) word s = Group.ofRules rules word (s.passRules 1) := by
        simp [Group.ofRules, hr]
      rcases ih (s.passRules 1) with ⟨pre, r', post, rfl, hpre, hf, hl, h⟩ | ⟨hall, h⟩
      · refine .inl ⟨r :: pre, r', post, rfl, ?_, hf, hl, ?_⟩
        · intro p hp
          rcases List.mem_cons.1 hp with rfl | hp
          · exact hr
          · exact hpre p hp
        · rw [hstep, h]
          simp [Nat.add_comm]
      · refine .inr ⟨?_, ?_⟩
        · intro p hp
          rcases List.mem_cons.1 hp with rfl | hp
          · exact hr
          · exact hall p hp
        · rw [hstep, h]
          simp [Nat.add_comm]

@[simp] theorem RuleSet.ofRules_apply (rules : RuleLists) (q : Quadrant) :
    RuleSet.ofRules rules q = Group.ofRules (rules q) := rfl

/-- Overlap does not depend on which rule is named first. -/
theorem Rule.Overlaps.symm {r r' : Rule} (h : r.Overlaps r') : r'.Overlaps r := by
  obtain ⟨word, h1, h2⟩ := h
  exact ⟨word, h2, h1⟩

/-- Non-overlap does not depend on the order of the list. -/
theorem NonOverlapping.perm {rules rules' : List Rule} (h : NonOverlapping rules) (hp : rules.Perm rules') :
    NonOverlapping rules' :=
  (hp.pairwise_iff fun hno ho => hno ho.symm).1 h

/-- Without overlap, the rule that claims a word is the one that fires on it. -/
theorem NonOverlapping.fires {rules : List Rule} (h : NonOverlapping rules) {r : Rule} (hr : r ∈ rules)
    {word : BitVec 32} (hf : r.fixed word = true) (hl : r.legal word = true) (s : State) :
    ∃ k, Group.ofRules rules word s = r.fire word (s.passRules k) := by
  induction rules generalizing s with
  | nil => cases hr
  | cons p rules ih =>
    obtain ⟨hp, hrest⟩ := List.pairwise_cons.1 h
    rcases List.mem_cons.1 hr with rfl | hr
    · exact ⟨0, by simp [Group.ofRules, hf, hl]⟩
    · have hno : (p.fixed word && p.legal word) = false := by
        rw [← Bool.not_eq_true, Bool.and_eq_true]
        exact fun hpw => hp r hr ⟨word, hpw, hf, hl⟩
      obtain ⟨k, hk⟩ := ih hrest hr (s.passRules 1)
      refine ⟨1 + k, ?_⟩
      rw [State.passRules_passRules] at hk
      rw [← hk, Group.ofRules, hno]
      rfl

/-- A group made of patterns fires the instruction the pattern walk finds. -/
theorem Group.ofRules_patterns_some (ps : List Pattern) (word : BitVec 32) (s : State) (i : Instr)
    (h : firstMatch ps word = some i) :
    ∃ k, Group.ofRules (ps.map ruleOf) word s =
      andThen (exec i (s.passRules k)) fun s' => .next (.matched, s') := by
  induction ps generalizing s with
  | nil => simp [firstMatch] at h
  | cons p ps ih =>
    by_cases hp : (p.fixed word && p.legal word) = true
    · simp only [firstMatch, hp, if_true, Option.some.injEq] at h
      exact ⟨0, by simp [Group.ofRules, ruleOf, Rule.fire, hp, h]⟩
    · simp only [Bool.not_eq_true] at hp
      rw [firstMatch, hp] at h
      obtain ⟨k, hk⟩ := ih (s.passRules 1) h
      refine ⟨k + 1, ?_⟩
      rw [List.map_cons, Group.ofRules]
      simp only [ruleOf, hp] at hk ⊢
      simpa [Nat.add_comm] using hk

/-- A group made of patterns answers no-match where the pattern walk finds nothing. -/
theorem Group.ofRules_patterns_none (ps : List Pattern) (word : BitVec 32) (s : State)
    (h : firstMatch ps word = none) :
    ∃ k, Group.ofRules (ps.map ruleOf) word s = .next (.noMatch, (s.passRules k)) := by
  rw [firstMatch_eq_none] at h
  rcases Group.ofRules_cases (ps.map ruleOf) word s with ⟨pre, r, post, heq, -, hf, hl, -⟩ | ⟨-, h'⟩
  · have hr : r ∈ ps.map ruleOf := by rw [heq]; simp
    obtain ⟨p, hp, rfl⟩ := List.mem_map.1 hr
    have hno := h p hp
    simp only [ruleOf] at hf hl
    simp [hf, hl] at hno
  · exact ⟨_, h'⟩

/-! ## The driver -/

/-- The decode failure always completes: one program-counter write, text, `FAILED`. -/
theorem takeDecodeFailure_eq (s : State) :
    takeDecodeFailure s =
      .next (((s.withBlock (append s.block (.put .pc (.const64 s.guestAddress)))).dumpWord).retire .failed) := by
  simp [takeDecodeFailure, bind, Except.bind, pure, Except.pure]

/-- A match with `continue` always completes: one program-counter write, the result as the rule left it. -/
theorem finishMatch_continue (s : State) (h : s.result.nextAction = .goOn) :
    finishMatch s =
      .next ((s.withBlock (append s.block
        (.put .pc (.const64 (s.guestAddress + BitVec.ofNat 64 s.result.consumedBytes.bytes))))).retire s.result) := by
  simp only [finishMatch, h, mkConst64_toNat, putPC_const64, bind, Except.bind, pure, Except.pure, conclude_ok]

/-- A match with `stop` always completes: nothing appended, the result as the rule left it. -/
theorem finishMatch_stop (s : State) (h : s.result.nextAction = .stop) : finishMatch s = .next (s.retire s.result) := by
  simp only [finishMatch, h]

/-- The driver's finish does not see where the walk stood. -/
@[simp] theorem finishMatch_passRules (s : State) (k : Nat) : finishMatch (s.passRules k) = finishMatch s := by
  cases h : s.result.nextAction with
  | goOn => rw [finishMatch_continue s h, finishMatch_continue (s.passRules k) h]; rfl
  | stop => rw [finishMatch_stop s h, finishMatch_stop (s.passRules k) h]; rfl

/-- What a decode call that answers a next state has gone through, for any rule set. -/
theorem decodeCall_eq_next {rs : RuleSet} {s t : State} (h : decodeCall rs s = .next t) :
    ∃ w a, lengthDetect s.buffer s.offset = some w ∧ misaligned s.guestAddress = false ∧
      dispatch rs w (s.startCall.withWord w) = .next a ∧ finish a = .next t := by
  unfold decodeCall at h
  split at h
  · cases h
  · rename_i w hw
    split at h
    · cases h
    · rename_i hal
      obtain ⟨a, ha, hf⟩ := andThen_eq_next.1 h
      exact ⟨w, a, hw, by simpa using hal, ha, hf⟩

end Sys2Proof.Machine
end

