-- ==== Sys2Proof/Laws/Memory.lean ====
section
/-! SUPPORT. The laws of sparse cells and of the guest byte buffer: reads after writes, and the canonical form. -/

namespace Sys2Proof.Machine

/-! ## Cells -/

section Cells

variable {β : Type}

@[simp] theorem Cells.lookup_nil (a : Nat) : Cells.lookup ([] : List (Nat × β)) a = none := rfl

theorem Cells.lookup_insert_same (m : List (Nat × β)) (a : Nat) (b : β) :
    Cells.lookup (Cells.insert m a b) a = some b := by
  induction m with
  | nil => simp [Cells.insert, Cells.lookup]
  | cons c rest ih =>
    obtain ⟨k, v⟩ := c
    by_cases hlt : a < k
    · simp [Cells.insert, hlt, Cells.lookup]
    · by_cases heq : a = k
      · simp [Cells.insert, heq, Cells.lookup]
      · simp [Cells.insert, hlt, heq, Cells.lookup, ih]

theorem Cells.lookup_insert_other (m : List (Nat × β)) (a c : Nat) (b : β) (h : c ≠ a) :
    Cells.lookup (Cells.insert m a b) c = Cells.lookup m c := by
  induction m with
  | nil => simp [Cells.insert, Cells.lookup, h]
  | cons d rest ih =>
    obtain ⟨k, v⟩ := d
    by_cases hlt : a < k
    · simp [Cells.insert, hlt, Cells.lookup, h]
    · by_cases heq : a = k
      · subst heq
        simp [Cells.insert, Cells.lookup, h]
      · simp [Cells.insert, hlt, heq, Cells.lookup, ih]

/-- A sorted list of cells, seen from its head: the rest is sorted and every key of it is above the head's. -/
theorem Cells.sorted_cons (k : Nat) (v : β) (rest : List (Nat × β)) :
    Cells.sorted ((k, v) :: rest) = true ↔ Cells.sorted rest = true ∧ ∀ c ∈ rest, k < c.1 := by
  induction rest generalizing k v with
  | nil => simp [Cells.sorted]
  | cons c rest ih =>
    obtain ⟨k', v'⟩ := c
    simp only [Cells.sorted, Bool.and_eq_true, decide_eq_true_eq, ih k' v', List.mem_cons, forall_eq_or_imp]
    constructor
    · rintro ⟨hk, hs, hall⟩
      exact ⟨⟨hs, hall⟩, hk, fun c hc => Nat.lt_trans hk (hall c hc)⟩
    · rintro ⟨⟨hs, hall⟩, hk, -⟩
      exact ⟨hk, hs, hall⟩

theorem Cells.mem_insert_key (m : List (Nat × β)) (a : Nat) (b : β) :
    ∀ c ∈ Cells.insert m a b, c.1 = a ∨ ∃ d ∈ m, d.1 = c.1 := by
  induction m with
  | nil => simp [Cells.insert]
  | cons e rest ih =>
    obtain ⟨k, v⟩ := e
    intro c hc
    by_cases hlt : a < k
    · simp [Cells.insert, hlt] at hc
      rcases hc with rfl | rfl | hc
      · exact .inl rfl
      · exact .inr ⟨_, by simp, rfl⟩
      · exact .inr ⟨c, by simp [hc], rfl⟩
    · by_cases heq : a = k
      · simp [Cells.insert, heq] at hc
        rcases hc with rfl | hc
        · exact .inl heq.symm
        · exact .inr ⟨c, by simp [hc], rfl⟩
      · simp [Cells.insert, hlt, heq] at hc
        rcases hc with rfl | hc
        · exact .inr ⟨_, by simp, rfl⟩
        · rcases ih c hc with h | ⟨d, hd, h⟩
          · exact .inl h
          · exact .inr ⟨d, by simp [hd], h⟩

theorem Cells.insert_sorted (m : List (Nat × β)) (a : Nat) (b : β) (h : Cells.sorted m = true) :
    Cells.sorted (Cells.insert m a b) = true := by
  induction m with
  | nil => rfl
  | cons c rest ih =>
    obtain ⟨k, v⟩ := c
    obtain ⟨hs, hall⟩ := (Cells.sorted_cons k v rest).1 h
    by_cases hlt : a < k
    · simp only [Cells.insert, if_pos hlt, Cells.sorted_cons, List.mem_cons, forall_eq_or_imp]
      exact ⟨⟨hs, hall⟩, hlt, fun c hc => Nat.lt_trans hlt (hall c hc)⟩
    · by_cases heq : a = k
      · subst heq
        simp only [Cells.insert, Nat.lt_irrefl, if_false, if_true, Cells.sorted_cons]
        exact ⟨hs, hall⟩
      · simp only [Cells.insert, hlt, heq, if_false, Cells.sorted_cons]
        refine ⟨ih hs, fun c hc => ?_⟩
        rcases Cells.mem_insert_key rest a b c hc with h | ⟨d, hd, h⟩
        · omega
        · exact h ▸ hall d hd

end Cells

/-! ## The buffer -/

@[simp] theorem Memory.read_write_same (m : Memory) (a : Nat) (b : Byte) : (m.write a b).read a = some b :=
  Cells.lookup_insert_same m a b

theorem Memory.read_write_other (m : Memory) (a c : Nat) (b : Byte) (h : c ≠ a) :
    (m.write a b).read c = m.read c :=
  Cells.lookup_insert_other m a c b h

theorem Memory.write_wf (m : Memory) (a : Nat) (b : Byte) (h : m.wf = true) : (m.write a b).wf = true :=
  Cells.insert_sorted m a b h

theorem Memory.load_wf (m : Memory) (a : Nat) (bs : List Byte) (h : m.wf = true) : (m.load a bs).wf = true := by
  induction bs generalizing m a with
  | nil => exact h
  | cons b bs ih => exact ih _ _ (Memory.write_wf m a b h)

/-- A load leaves every index outside the loaded range as it was. -/
theorem Memory.read_load_outside (m : Memory) (a c : Nat) (bs : List Byte) (h : c < a ∨ a + bs.length ≤ c) :
    (m.load a bs).read c = m.read c := by
  induction bs generalizing m a with
  | nil => rfl
  | cons b bs ih =>
    simp only [List.length_cons] at h
    rw [Memory.load, ih _ _ (by omega), Memory.read_write_other _ _ _ _ (by omega)]

/-- What a fetch unit's read needs and gives. -/
theorem bufRead16_eq_some {m : Memory} {off : Nat} {u : FetchUnit} :
    bufRead16 m off = some u ↔
      ∃ lo hi, m.read off = some lo ∧ m.read (off + 1) = some hi ∧ u = fetchUnit lo hi := by
  unfold bufRead16
  cases m.read off <;> cases m.read (off + 1) <;> simp [eq_comm]

end Sys2Proof.Machine
end

