-- ==== Sys2Proof/Laws/PerInstr.lean ====
section
/-! SUPPORT. One lemma per instruction: its encoding goes to the group that holds its rule. -/

namespace Sys2Proof.Laws.EncodedQuadrant

/-- The encoded word of `i` is offered to a group that has a pattern with its fixed bits (30_encoding.md R52). -/
def Statement (i : Instr) : Prop :=
  ∃ p ∈ patterns (quadrantOf (encode i).path), p.fixed (encode i).path = true

theorem cLui (rd : BitVec 5) (imm6 : BitVec 6) : Statement (.cLui rd imm6) := by
  have hq : ∀ (rd : BitVec 5) (imm6 : BitVec 6), quadrantOf (encode (.cLui rd imm6)).path = .q01 ∧
      cLuiFixed (encode (.cLui rd imm6)).path = true := by decide +kernel
  refine ⟨cLuiPattern, ?_, (hq rd imm6).2⟩
  rw [(hq rd imm6).1]
  exact List.mem_singleton.2 rfl

end Sys2Proof.Laws.EncodedQuadrant
end

