-- ==== Sys2Proof/Tests/Slice0.lean ====
section
/-! SUPPORT. Tests against the spec's own vectors (95_test_vectors.md), the smoke tests of WellFormed, and one witness for
every statement that has hypotheses. Expected values come from the spec's tables. -/

namespace Sys2Proof.Tests

open Sys2Proof.Machine

/-! ## Helpers -/

/-- Reset, with bytes in the buffer from index 0 and a guest address. -/
def callOn (bytes : List Byte) (a : Word) : State :=
  { State.reset.loadBuffer 0 bytes with guestAddress := a }

/-- What a call returned and what the block holds after it. -/
def seen : Host.Outcome State Fault Refusal → Option (DecodeResult × List IRStmt)
  | .next s => s.output.map fun r => (r, s.block.stmts)
  | _ => none

/-- The fault a call ended in. -/
def faultOf {α : Type} : Host.Outcome α Fault Refusal → Option Fault
  | .fault f => some f
  | _ => none

/-- `{continue, 2, none, none}`. -/
def done2 : DecodeResult where
  nextAction := .goOn
  consumedBytes := .two
  terminalKind := .none
  hint := .none

/-- A call that fails at `a`. -/
def failedAt (a : Word) : Option (DecodeResult × List IRStmt) := some (.failed, [.put .pc (.const64 a)])

/-- A call of `c.lui` that fires at `0x1000`. -/
def firedAt1000 (n : Fin 32) (v : Word) : Option (DecodeResult × List IRStmt) :=
  some (done2, [.put (.reg n) (.const64 v), .put .pc (.const64 0x1002)])

/-! ## WellFormed: each check refuses an ill-formed term (44_rule_c_lui.md R106) -/

theorem test_wf_refuses_rd_zero : (Instr.cLui 0 33).wf = false := by decide
theorem test_wf_refuses_rd_two : (Instr.cLui 2 33).wf = false := by decide
theorem test_wf_refuses_imm_zero : (Instr.cLui 10 0).wf = false := by decide
theorem test_wf_accepts_scenario_a : (Instr.cLui 10 33).wf = true := by decide

/-- 1890 of the 2048 operand pairs are legal (30_encoding.md R53). -/
theorem test_wf_counts :
    ((List.range 2048).filter fun n => (Instr.cLui (BitVec.ofNat 5 (n / 64)) (BitVec.ofNat 6 n)).wf).length = 1890 := by
  decide +kernel

/-! ## Decoding: words written out from the encoding (95_test_vectors.md 2.6) -/

theorem test_decode_firing_words :
    decodeTableWord 16 0b0111010100000101 = some (.cLui 10 33) ∧
    decodeTableWord 16 0b0110010101111101 = some (.cLui 10 31) ∧
    decodeTableWord 16 0b0111010100000001 = some (.cLui 10 32) ∧
    decodeTableWord 16 0b0110010000001001 = some (.cLui 8 2) ∧
    decodeTableWord 16 0b0111001011000001 = some (.cLui 5 48) ∧
    decodeTableWord 16 0b0111111111111101 = some (.cLui 31 63) := by decide

theorem test_decode_other_words :
    decodeTableWord 16 0x7005 = none ∧ decodeTableWord 16 0x7105 = none ∧ decodeTableWord 16 0x6501 = none ∧
    decodeTableWord 16 0x5505 = none ∧ decodeTableWord 16 0xF505 = none ∧ decodeTableWord 16 0x7504 = none ∧
    decodeTableWord 16 0x7506 = none ∧ decodeTableWord 32 0x7507 = none ∧ decodeTableWord 16 0x0575 = none := by decide

theorem test_encode_scenario_a : encode (.cLui 10 33) = .compressed 0x7505 := by decide

/-! ## Extractor, sign-extend unit, length detector (95_test_vectors.md 2.1 to 2.3) -/

theorem test_extractField_vectors :
    (extractField 0x7505#16 15 13 : BitVec 3) = 3 ∧ (extractField 0x7505#16 11 7 : BitVec 5) = 10 ∧
    (extractField 0x0500#16 11 7 : BitVec 5) = 10 ∧ (extractField 0x80000000#32 31 31 : BitVec 1) = 1 ∧
    (extractField 0x1234007F#32 4 2 : BitVec 3) = 7 ∧ (extractField 0x1002#64 1 0 : BitVec 2) = 2 ∧
    (extractField 0xFFFFFFFFFFFE1000#64 31 12 : BitVec 20) = 0xFFFE1 := by decide

theorem test_signExtend_vectors :
    signExtend 2 2 = .ok 0xFFFFFFFFFFFFFFFE ∧ signExtend 0x21000 18 = .ok 0xFFFFFFFFFFFE1000 ∧
    signExtend 0x1FFFF 18 = .ok 0x1FFFF ∧ signExtend 0x4000000000000000 63 = .ok 0xC000000000000000 ∧
    signExtend 0xF3 3 = .ok 3 ∧ signExtend 5 1 = .error .signExtendWidth ∧ signExtend 5 64 = .error .signExtendWidth := by
  and_intros <;> rfl

theorem test_lengthDetect_vectors :
    lengthDetect (callOn [0x05, 0x75, 0xFF, 0xFF] 0).buffer 0 = some (.compressed 0x7505) ∧
    lengthDetect (callOn [0x13, 0x05, 0x10, 0x00] 0).buffer 0 = some (.full 0x00100513) ∧
    lengthDetect (callOn [0x7F, 0x00, 0x34, 0x12] 0).buffer 0 = some (.full 0x1234007F) ∧
    lengthDetect (callOn [0x00, 0x05, 0x75] 0).buffer 1 = some (.compressed 0x7505) ∧
    lengthDetect (callOn [0x13, 0x05] 0).buffer 0 = none ∧ lengthDetect (callOn [0x05, 0x75] 0).buffer 1 = none := by
  decide

/-! ## Register model, helpers, meaning of IR (95_test_vectors.md 2.4) -/

/-- A block whose temporary 0 has a type other than `I64`. -/
def oddBlock : IRBlock := ⟨[], [.other 0]⟩

theorem test_register_model_vectors :
    getRegister 31 = .ok (.get (.reg 31) .i64) ∧ getRegister 32 = .error .registerRange ∧
    putRegister .empty 0 (.const64 5) = .ok ⟨[.put (.reg 0) (.const64 5)], []⟩ ∧
    putRegister oddBlock 5 (.rdTmp 0) = .error .registerWriteType ∧
    putRegister oddBlock 32 (.rdTmp 0) = .error .registerRange ∧
    mkConst64 (2 ^ 64) = .const64 0 ∧ (newTemp (newTemp .empty .i64).2 .i64).1 = 1 := by
  and_intros <;> rfl

theorem test_meaning_of_ir :
    (runStmts [.put (.reg 10) (.const64 7), .put .pc (.const64 0x1002)] .reset).map
        (fun g => (g.read (.reg 10), g.read .pc, g.read (.reg 9))) = some (7, 0x1002, 0) ∧
    runStmts [.put (.reg 0) (.const64 5)] .reset = some .reset ∧
    runStmts [.put (.reg 1) (.rdTmp 0)] .reset = none := by decide

theorem test_recommended_texts :
    (TextOutput.traceLine (.instr (.cLui 10 33))).recommended = "c.lui a0, 0xfffe1".toList ∧
    (TextOutput.traceLine (.instr (.cLui 15 16))).recommended = "c.lui a5, 0x10".toList ∧
    (TextOutput.dump 0x1000 (.compressed 0x7005)).recommended =
      "no-decode at 0x1000: 0x7005 0b0111000000000101".toList := by decide

/-! ## One step (95_test_vectors.md 2.6, 2.7) -/

theorem test_step_scenario_a :
    seen (step (callOn [0x05, 0x75] 0x1000)) = firedAt1000 10 0xFFFFFFFFFFFE1000 := by decide

theorem test_step_scenario_b : seen (step (callOn [0x05, 0x70] 0x1000)) = failedAt 0x1000 := by decide

theorem test_step_scenario_c : seen (step (callOn [0x07, 0x75, 0x00, 0x00] 0x1000)) = failedAt 0x1000 := by decide

theorem test_step_aborts :
    faultOf (step (callOn [0x05, 0x70] 0x1002)) = some (.abort .misalignedGuestAddress) ∧
    faultOf (step (callOn [0x13, 0x05] 0x1002)) = some .noStep := by decide

/-! ## Rejection falls through, and the driver with rules the hardware lacks (95_test_vectors.md 2.5, 2.7) -/

/-- A test fixture's action: one register write, the group's length, a trace line. -/
def marker (q : Quadrant) (n : Nat) (v : Int) (s : State) : Host.Outcome State Fault Refusal :=
  conclude do
    let b ← putRegister s.block n (mkConst64 v)
    return ((s.withBlock b).withResult { s.result with consumedBytes := consumedOf q }).traceRule (.rule "marker")

/-- `T_SP`: the fixed bits of `c.lui`, `rd = 2`. -/
def tSP : Rule where
  name := "T_SP"
  fixed := cLuiFixed
  legal := fun w => cLuiRd w == 2 && cLuiImm6 w != 0
  action := fun _ s => marker .q01 2 0xDEAD s

/-- `T_REST`: exactly what `c.lui` and `T_SP` both reject. -/
def tRest : Rule where
  name := "T_REST"
  fixed := cLuiFixed
  legal := fun w => cLuiRd w == 0 || cLuiImm6 w == 0
  action := fun _ s => marker .q01 1 0xBEEF s

/-- `T_W32` in Group11. -/
def tW32 : Rule where
  name := "T_W32"
  fixed := fun w => extractField w 6 0 == 0b0010011#7
  legal := fun _ => true
  action := fun w s => marker .q11 (cLuiRd w).toNat 7 s

/-- `T_STOP` in Group11. -/
def tStop : Rule where
  name := "T_STOP"
  fixed := fun w => extractField w 6 0 == 0b1111111#7
  legal := fun _ => true
  action := fun _ s => conclude do
    let b ← putPC s.block (mkConst64 0x2000)
    return ((s.withBlock b).withResult
      { nextAction := .stop, consumedBytes := .four, terminalKind := .other 0, hint := .none }).traceRule (.rule "T_STOP")

/-- The rule set with Group01 as given, Group11 = [T_W32, T_STOP], and a broken Group10 that changes the result and answers
no-match. -/
def fixture (g01 : List Rule) : RuleSet
  | .q00 => Group.ofRules []
  | .q01 => Group.ofRules g01
  | .q10 => fun _ s => .next (.noMatch, s.withResult { s.result with consumedBytes := .two })
  | .q11 => Group.ofRules [tW32, tStop]

/-- Rule sets F1 and F3 of 95_test_vectors.md 2.5. -/
def f1 : RuleSet := fixture [ruleOf cLuiPattern, tSP]
def f3 : RuleSet := fixture [ruleOf cLuiPattern, tSP, tRest]

theorem test_rejection_falls_through :
    seen (decodeCall f1 (callOn [0x05, 0x71] 0x1000)) = firedAt1000 2 0xDEAD ∧
    seen (decodeCall f1 (callOn [0x05, 0x70] 0x1000)) = failedAt 0x1000 ∧
    seen (decodeCall f3 (callOn [0x05, 0x70] 0x1000)) = firedAt1000 1 0xBEEF ∧
    seen (decodeCall f3 (callOn [0x05, 0x75] 0x1000)) = firedAt1000 10 0xFFFFFFFFFFFE1000 := by decide

theorem test_driver_with_other_rules :
    seen (decodeCall f1 (callOn [0x13, 0x05, 0x10, 0x00] 0xFFFFFFFFFFFFFFFC)) =
      some (⟨.goOn, .four, .none, .none⟩, [.put (.reg 10) (.const64 7), .put .pc (.const64 0)]) ∧
    seen (decodeCall f1 (callOn [0x7F, 0x00, 0x34, 0x12] 0x1000)) =
      some (⟨.stop, .four, .other 0, .none⟩, [.put .pc (.const64 0x2000)]) ∧
    faultOf (decodeCall f1 (callOn [0xFE, 0xFF] 0x1000)) = some (.abort .protocolViolation) := by decide

/-! ## The memory and the guest state at reset are in canonical form -/

theorem reset_buffer_wf : State.reset.buffer.wf = true := by decide
theorem reset_guest_inv : State.reset.guest.Inv := by decide

/-! ## Witnesses: concrete data that meet the hypotheses of each statement, clause by clause -/

/-- Scenario A's call, Scenario B's call, and a 32-bit word's. -/
def sA : State := callOn [0x05, 0x75] 0x1000
def sB : State := callOn [0x05, 0x70] 0x1000
def sC : State := callOn [0x13, 0x05, 0x10, 0x00] 0x1000

theorem sA_answers : ∃ t, step sA = .next t := ⟨_, rfl⟩
theorem sB_answers : ∃ t, step sB = .next t ∧ t.output = some .failed := ⟨_, rfl, rfl⟩

theorem witness_DecodeOfEncodedInstruction : (Instr.cLui 1 1).wf = true ∧ (Instr.cLui 31 63).wf = true := by decide
theorem witness_EncodeOfDecodedBytes : decode [0x05, 0x75, 0xFF] = .ok (.cLui 10 33, [0xFF]) := by rfl
theorem witness_CompressedWordFiresExactly : decodeWord (.compressed 0x7F81) = some (.cLui 31 32) := by decide
theorem witness_QuadrantTellsWidthAndGroup :
    lengthDetect [(0, 0x04), (1, 0x75)] 0 = some (.compressed 0x7504) ∧ (0x7504 : BitVec 32).toNat % 4 = 0 ∧
    lengthDetect sA.buffer 0 = some (.compressed 0x7505) ∧ (0x7505 : BitVec 32).toNat % 4 = 1 ∧
    lengthDetect [(0, 0x06), (1, 0x75)] 0 = some (.compressed 0x7506) ∧ (0x7506 : BitVec 32).toNat % 4 = 2 ∧
    lengthDetect sC.buffer 0 = some (.full 0x00100513) ∧ (0x00100513 : BitVec 32).toNat % 4 = 3 := by decide
theorem witness_ExtractFieldIsTheSlice :
    (0 ≤ 15 ∧ 15 < 16 ∧ 15 = 16 - 1) ∧ (31 ≤ 31 ∧ 31 < 32) ∧ (0 : Nat) ≤ 31 - 31 := by decide
theorem witness_ExtractFieldIgnoresOtherBits :
    ∀ k, 7 ≤ k → k ≤ 11 → (0x0500 : BitVec 16).getLsbD k = (0x7505 : BitVec 16).getLsbD k := by
  intro k h1 h2
  have : k = 7 ∨ k = 8 ∨ k = 9 ∨ k = 10 ∨ k = 11 := by omega
  rcases this with rfl | rfl | rfl | rfl | rfl <;> decide
theorem witness_DynamicExtractChecksRange :
    (extractFieldDyn (0x7505 : BitVec 16) 15 0).isOk = true ∧ (extractFieldDyn (0x7505 : BitVec 16) 16 0).isOk = false ∧
    (extractFieldDyn (0x7505 : BitVec 16) 7 11).isOk = false := by decide
theorem witness_SignExtendIsTwosComplement : 2 ≤ 2 ∧ 63 ≤ 63 ∧ 3 < 2 ^ 2 ∧ 2 ^ 63 - 1 < 2 ^ 63 := by decide
theorem witness_SignExtendReplicatesTheSignBit :
    signExtend 0xFF 2 = .ok (BitVec.ofInt 64 (-1)) ∧ signExtend 1 63 = .ok 1 := ⟨rfl, rfl⟩
theorem witness_SignExtendChecksWidth :
    (signExtend 0 1).isOk = false ∧ (signExtend 0 2).isOk = true ∧ (signExtend 0 63).isOk = true ∧
    (signExtend 0 64).isOk = false := by decide
theorem witness_FetchUnitIsLittleEndian : bufRead16 sA.buffer 0 = some 0x7505 := by decide
theorem witness_FullWordIsFourBytes : lengthDetect sC.buffer 0 = some (.full 0x00100513) := by decide
theorem witness_LengthFromLowBits :
    bufRead16 sA.buffer 0 = some 0x7505 ∧ 0x7505 % 4 ≠ 3 ∧
    bufRead16 sC.buffer 0 = some 0x0513 ∧ 0x0513 % 4 = 3 ∧ bufRead16 sC.buffer 2 = some 0x0010 := by decide
theorem witness_LoadedBytesRead : 1 < [(0x05 : Byte), 0x75].length ∧ sA.buffer.read 1 = some 0x75 := by decide
theorem witness_CanonicalBuffersAreEqual : Memory.wf [(0, 5), (7, 6)] = true := by decide
theorem witness_GetRegisterReadsInRange : 31 < 32 ∧ 31 < 32 := by decide
theorem witness_PutRegisterAppendsOrAborts :
    31 < 32 ∧ typeOf oddBlock (.rdTmp 0) ≠ some .i64 ∧ typeOf oddBlock (.const64 0) = some .i64 := by decide
theorem witness_PutPCAppendsOrAborts :
    typeOf oddBlock (.rdTmp 0) ≠ some .i64 ∧ typeOf oddBlock (.get .pc .i64) = some .i64 := by decide
theorem witness_NewTempIsNextFreeIndex : 0 < oddBlock.tmps.length := by decide
theorem witness_OffsetsDoNotAlias : (31 : Fin 32) ≠ 0 ∧ (0 : Fin 32) ≠ 31 := by decide
theorem witness_PutChangesOneLocation :
    evalExpr .reset (.rdTmp 0) = none ∧ evalExpr { GuestState.reset with env := [(0, 5)] } (.rdTmp 0) = some 5 ∧
    (.reg 31 : Offset) ≠ .reg 0 ∧ (.pc : Offset) ≠ .reg 0 := by decide
theorem witness_DefinitionChangesOneTemporary :
    GuestState.reset.env = [] ∧ evalExpr .reset (.rdTmp 0) = none ∧ evalExpr .reset (.get (.reg 0) .i64) = some 0 ∧
    (1 : Temp) ≠ 0 := by decide
theorem witness_RunningABlockKeepsRegisterZero :
    State.reset.guest.Inv ∧ (State.reset.withBlock ⟨[.put (.reg 0) (.const64 5), .wrTmp 0 (.const64 1)], [.i64]⟩).runBlock.isSome := by
  decide
theorem witness_FirstLegalMatchFires :
    ([ruleOf cLuiPattern, tSP] = [ruleOf cLuiPattern] ++ tSP :: []) ∧
    (∀ p ∈ [ruleOf cLuiPattern], ¬ (p.fixed 0x7105 = true ∧ p.legal 0x7105 = true)) ∧
    tSP.fixed 0x7105 = true ∧ tSP.legal 0x7105 = true ∧
    (∀ r ∈ [ruleOf cLuiPattern, tSP], ¬ (r.fixed 0x7005 = true ∧ r.legal 0x7005 = true)) := by
  refine ⟨rfl, ?_, by decide, by decide, ?_⟩
  · intro p hp
    rw [List.mem_singleton.1 hp]
    decide
  · intro r hr
    rcases List.mem_cons.1 hr with rfl | hr
    · decide
    · rw [List.mem_singleton.1 hr]
      decide

/-- A group that answers match for every word, keeping its contract. -/
def matchAll (q : Quadrant) : Group := fun _ s =>
  .next (.matched, (s.withResult { DecodeResult.defaults with consumedBytes := consumedOf q }).traceRule (.rule "all"))

theorem matchAll_keepsContract : RuleSet.KeepsContract matchAll := by
  intro q word s _
  refine ⟨.matched, _, rfl, ?_⟩
  refine ⟨⟨rfl, rfl, rfl, rfl, rfl, rfl⟩, rfl, ?_, .start, fun h => (by cases h), fun _ e => ?_,
    ⟨_, State.traceRule_cases (s.withResult _) (.rule "all")⟩⟩
  · simp only [State.traceRule_result, State.withResult_result]
    cases q <;> decide
  · simp

theorem marker_keepsContract (q : Quadrant) (n : Nat) (v : Int) (s : State) (hn : n < 32) (hs : s.result = .defaults) :
    ∃ s', marker q n v s = .next s' ∧ MatchKept q s s' := by
  have hw : putRegister s.block n (mkConst64 v) = .ok (append s.block (.put (.reg ⟨n, hn⟩) (mkConst64 v))) :=
    putRegister_const64 _ _ hn _
  have hm : marker q n v s = .next (((s.withBlock (append s.block (.put (.reg ⟨n, hn⟩) (mkConst64 v)))).withResult
      { s.result with consumedBytes := consumedOf q }).traceRule (.rule "marker")) := by
    simp only [marker, hw, bind, Except.bind, pure, Except.pure, conclude_ok]
  refine ⟨_, hm, ⟨rfl, rfl, rfl, rfl, rfl, rfl⟩, rfl, ?_, .register hw, fun h => ?_, fun _ e => ?_,
    ⟨_, State.traceRule_cases ((s.withBlock _).withResult _) (.rule "marker")⟩⟩
  · simp only [State.traceRule_result, State.withResult_result, hs]
    cases q <;> decide
  · simp [hs, DecodeResult.defaults] at h
  · simp

/-- A rule that fires on every word of Group11, keeping its contract. -/
def fireAll : Rule where
  name := "fireAll"
  fixed := fun _ => true
  legal := fun _ => true
  action := fun _ s => marker .q11 5 7 s

/-- A second pattern, disjoint from that of `c.lui` in its quadrant. -/
def otherPattern : Pattern where
  name := "other"
  fixed := fun w => extractField w 1 0 == 0b10#2
  legal := fun _ => true
  instr := fun w => .cLui (cLuiRd w) (cLuiImm6 w)

theorem patterns_nonOverlapping : NonOverlapping ([cLuiPattern, otherPattern].map ruleOf) := by
  simp only [NonOverlapping, List.map_cons, List.map_nil, List.pairwise_cons, List.mem_singleton, forall_eq]
  refine ⟨?_, by simp⟩
  rintro ⟨word, ⟨h1, -⟩, h2, -⟩
  simp only [ruleOf, cLuiPattern, cLuiFixed, otherPattern, Bool.and_eq_true, beq_iff_eq] at h1 h2
  exact absurd (h1.1.symm.trans h2) (by decide)

/-- `T_BAD`: the fixed bits of `c.lui`, every operand legal. -/
def tBad : Rule where
  name := "T_BAD"
  fixed := cLuiFixed
  legal := fun _ => true
  action := fun _ s => marker .q01 3 0 s

/-- Rule set F4, `[C_LUI, T_BAD]`, is refused: it breaks non-overlap, so no `RULESET` with that Group01 is lawful. -/
theorem test_overlapping_rules_are_not_lawful (rules : RuleLists) (h : rules .q01 = [ruleOf cLuiPattern, tBad]) :
    ¬ rules.Lawful := by
  intro hl
  have hn := hl.nonOverlapping .q01
  rw [h, NonOverlapping, List.pairwise_cons] at hn
  exact hn.1 tBad (by simp) ⟨0x7505, by decide, by decide⟩

/-- Group01 = [T_SP, T_REST], the other groups empty. -/
def twoRules : RuleLists
  | .q01 => [tSP, tRest]
  | _ => []

/-- The same with the order swapped. -/
def twoRulesSwapped : RuleLists
  | .q01 => [tRest, tSP]
  | _ => []

theorem twoRules_nonOverlapping : NonOverlapping [tSP, tRest] := by
  simp only [NonOverlapping, List.pairwise_cons, List.mem_singleton, forall_eq]
  refine ⟨?_, by simp⟩
  rintro ⟨word, ⟨-, h1⟩, -, h2⟩
  simp only [tSP, tRest, Bool.and_eq_true, Bool.or_eq_true, beq_iff_eq, bne_iff_ne] at h1 h2
  rcases h2 with h2 | h2
  · exact absurd (h1.1.symm.trans h2) (by decide)
  · exact h1.2 h2

theorem twoRules_lawful : twoRules.Lawful := by
  have hmem : ∀ q, ∀ r ∈ twoRules q, q = .q01 ∧ (r = tSP ∨ r = tRest) := by
    intro q r hr
    cases q <;> simp [twoRules] at hr ⊢
    exact hr
  refine ⟨fun q r hr => ?_, fun q r hr => ?_, fun q => ?_⟩
  · obtain ⟨rfl, rfl | rfl⟩ := hmem q r hr
    · exact fun _ s hs _ _ => marker_keepsContract .q01 2 0xDEAD s (by decide) hs
    · exact fun _ s hs _ _ => marker_keepsContract .q01 1 0xBEEF s (by decide) hs
  · obtain ⟨rfl, rfl | rfl⟩ := hmem q r hr
    · exact fun _ _ _ => rfl
    · exact fun _ _ _ => rfl
  · cases q
    · exact List.Pairwise.nil
    · exact twoRules_nonOverlapping
    · exact List.Pairwise.nil
    · exact List.Pairwise.nil

theorem witness_OrderIrrelevantWithoutOverlap :
    (NonOverlapping [tSP, tRest] ∧ [tSP, tRest].Perm [tRest, tSP]) ∧
    (twoRules.Lawful ∧ ∀ q, (twoRules q).Perm (twoRulesSwapped q)) ∧
    NonOverlapping ([cLuiPattern, otherPattern].map ruleOf) ∧
    [cLuiPattern, otherPattern].Perm [otherPattern, cLuiPattern] := by
  refine ⟨⟨twoRules_nonOverlapping, List.Perm.swap _ _ _⟩, ⟨twoRules_lawful, fun q => ?_⟩, patterns_nonOverlapping,
    List.Perm.swap _ _ _⟩
  cases q
  · exact List.Perm.refl _
  · exact List.Perm.swap _ _ _
  · exact List.Perm.refl _
  · exact List.Perm.refl _

theorem witness_LawfulRulesMakeALawfulGroup :
    (∀ r ∈ [fireAll], Rule.KeepsContract .q11 r) ∧ twoRules.Lawful := by
  refine ⟨fun r hr => ?_, twoRules_lawful⟩
  rw [List.mem_singleton.1 hr]
  exact fun word s hs _ _ => marker_keepsContract .q11 5 7 s (by decide) hs

theorem witness_OnlySelectedGroupIsAsked :
    quadrantOf (InstrWord.full 0x1234007F).path = .q11 ∧ f1 .q11 = f3 .q11 := ⟨by decide, rfl⟩
theorem witness_LoadUpperAppendsOneWrite : (Instr.cLui 31 1).wf = true := by decide
theorem witness_LoadUpperCallCompletes :
    (Instr.cLui 10 33).wf = true ∧ lengthDetect sA.buffer sA.offset = some (encode (.cLui 10 33)) ∧
    sA.guestAddress.toNat % 4 = 0 := by decide
theorem witness_LoadUpperMeaning :
    ((Instr.cLui 10 33).wf = true ∧ lengthDetect sA.buffer sA.offset = some (encode (.cLui 10 33))) ∧
    ∃ t, step sA = .next t := ⟨by decide, sA_answers⟩
theorem witness_RejectedLoadUpperFails :
    lengthDetect sB.buffer sB.offset = some (encode (.cLui 0 33)) ∧ sB.guestAddress.toNat % 4 = 0 ∧
    lengthDetect [(0, 0x05), (1, 0x71)] 0 = some (encode (.cLui 2 33)) ∧
    lengthDetect [(0, 0x01), (1, 0x65)] 0 = some (encode (.cLui 10 0)) := by decide
theorem witness_MisalignedAddressAborts :
    lengthDetect (callOn [0x05, 0x75] 0x1002).buffer 0 = some (.compressed 0x7505) ∧
    (callOn [0x05, 0x75] 0x1002).guestAddress.toNat % 4 ≠ 0 := by decide
theorem witness_ContinueAdvancesProgramCounter : State.reset.result.nextAction = .goOn := by decide
theorem witness_StopAppendsNothingFurther :
    ((State.reset.withResult .failed).result.nextAction = .stop) ∧
    ∃ t, step sB = .next t ∧ t.output = some .failed := ⟨by decide, sB_answers⟩
theorem witness_ChangedResultWithNoMatchAborts :
    (State.reset.withResult done2).result ≠ .defaults ∧
    ∀ q : Quadrant, ∀ r ∈ (fun _ => [fireAll]) q, ∀ word s', r.action word s' ≠ .fault (.abort .protocolViolation) := by
  refine ⟨by decide, fun q r hr word s' h => ?_⟩
  rw [List.mem_singleton.1 hr] at h
  cases h
theorem witness_FailedDecodeRewinds :
    lengthDetect sB.buffer sB.offset = some (.compressed 0x7005) ∧ sB.guestAddress.toNat % 4 = 0 ∧
    decodeWord (.compressed 0x7005) = none := by decide
theorem witness_FailedDecodeMeaning : ∃ t, step sB = .next t ∧ t.output = some .failed := sB_answers
theorem witness_DiagnosticsChangeOnlyText :
    lengthDetect sB.buffer sB.offset = some (.compressed 0x7005) ∧
    ∃ t, step sB = .next t ∧ t.output = some .failed := ⟨by decide, sB_answers⟩
theorem witness_EmptyGroupsAlwaysFail :
    lengthDetect sC.buffer sC.offset = some (.full 0x00100513) ∧ sC.guestAddress.toNat % 4 = 0 ∧
    (InstrWord.full 0x00100513).path.toNat % 4 ≠ 1 := by decide
theorem witness_StepRunsTheDecodedInstruction :
    (∀ k, k < 2 → sA.buffer.read (sA.offset + k) = [(0x05 : Byte), 0x75][k]?) ∧
    decode [0x05, 0x75] = .ok (.cLui 10 33, []) ∧ sA.guestAddress.toNat % 4 = 0 := by
  refine ⟨?_, rfl, by decide⟩
  intro k hk
  have : k = 0 ∨ k = 1 := by omega
  rcases this with rfl | rfl <;> decide
theorem witness_NoStepExactlyWhenBytesAreMissing :
    faultOf (step (callOn [] 0)) = some .noStep ∧ faultOf (step (callOn [0x05] 0)) = some .noStep ∧
    faultOf (step (callOn [0x13, 0x05] 0)) = some .noStep ∧ faultOf (step (callOn [0x13, 0x05, 0x10] 0)) = some .noStep := by
  decide
theorem witness_OutcomesInPriorityOrder :
    lengthDetect (callOn [0x13, 0x05] 0x1002).buffer 0 = none ∧
    lengthDetect (callOn [0x05, 0x70] 0x1002).buffer 0 ≠ none ∧ (0x1002 : Word).toNat % 4 ≠ 0 ∧
    lengthDetect sA.buffer sA.offset ≠ none ∧ sA.guestAddress.toNat % 4 = 0 := by decide
theorem witness_ConsumedBytesMatchTheLength :
    RuleSet.KeepsContract matchAll ∧ lengthDetect sC.buffer sC.offset = some (.full 0x00100513) ∧
    ∃ t, decodeCall matchAll sC = .next t := ⟨matchAll_keepsContract, by decide, _, rfl⟩
theorem witness_EveryLawfulRuleSetIsSound :
    RuleSet.KeepsContract matchAll ∧ lengthDetect sC.buffer sC.offset ≠ none ∧ sC.guestAddress.toNat % 4 = 0 :=
  ⟨matchAll_keepsContract, by decide, by decide⟩
theorem witness_LawfulCallsAppendOrderlyIR :
    RuleSet.KeepsContract matchAll ∧ RuleSet.KeepsContract (fun _ => Group.ofRules []) ∧
    (∃ t, decodeCall matchAll sC = .next t) ∧
    ∃ t, decodeCall (fun _ => Group.ofRules []) sC = .next t ∧ t.output = some .failed :=
  ⟨matchAll_keepsContract, fun _ _ _ _ => ⟨.noMatch, _, rfl, rfl⟩, ⟨_, rfl⟩, _, rfl, rfl⟩
theorem sA_inv : sA.Inv := ⟨by decide, by decide, by decide, by decide, by decide⟩
theorem witness_StepKeepsTheInvariant : sA.Inv ∧ ∃ t, step sA = .next t := ⟨sA_inv, sA_answers⟩

/-- Scenario A's bytes elsewhere in another buffer, other bytes after them, another working state and block. -/
def sA' : State :=
  { (State.reset.loadBuffer 9 [0x05, 0x75, 0xFF]).withBlock oddBlock with offset := 9, guestAddress := 0x1000, ruleIndex := 3 }
theorem witness_OutcomeDependsOnlyOnBytesRead :
    (sA.guestAddress = sA'.guestAddress ∧ sA.buffer.read sA.offset = sA'.buffer.read sA'.offset ∧
      sA.buffer.read (sA.offset + 1) = sA'.buffer.read (sA'.offset + 1) ∧
      ¬ (0x05 : Byte).toNat % 4 = 3 ∧ sA.buffer.read sA.offset = some 0x05) ∧
    ∃ t, step sA = .next t := ⟨by decide, sA_answers⟩
theorem witness_CallAgainRepeatsTheOutcome : ∃ t, step sA = .next t := sA_answers
theorem witness_BlockIsConcatenationOfCalls : ∃ t, issueAll [⟨0, 0x1000, false⟩, ⟨0, 0x1004, true⟩] sA = .next t := ⟨_, rfl⟩
theorem witness_NextCallAfterTwoByteInstructionAborts :
    ∃ t, step sA = .next t ∧ t.output ≠ some .failed ∧ lengthDetect t.buffer 0 ≠ none ∧
      (⟨0, 0x1002, false⟩ : Call).guestAddress = sA.guestAddress + 2 := ⟨_, rfl, by decide, by decide, by decide⟩

end Sys2Proof.Tests
end

section
/-! PROOFS. The family of 10_state.md: what the state keeps across one decode call and across a run of emitted IR. The rules
about each operation come first, then the call's possible ends, then the obligations. -/

open Sys2Proof Sys2Proof.Machine

namespace Sys2Proof.Machine

/-! ## Running IR over the guest state -/

/-- A write runs exactly as its expression evaluates. -/
theorem runStmt_put_of_eval {g : GuestState} {e : IRExpr} {v : Word} (off : Offset) (h : evalExpr g e = some v) :
    runStmt g (.put off e) = some (g.write off v) := by
  simp [runStmt, h]

/-- The location of register 0 is out of reach of every write, so the invariant of the guest state survives it. -/
theorem GuestState.Inv.write {g : GuestState} (h : g.Inv) (off : Offset) (v : Word) : (g.write off v).Inv := by
  obtain ⟨hzero, hsorted⟩ := h
  refine ⟨?_, by rwa [GuestState.write_env]⟩
  cases off with
  | pc => exact hzero
  | reg n =>
    by_cases hn : n = 0
    · subst hn
      exact hzero
    · have hne : (n : Nat) ≠ 0 := fun e => hn (Fin.ext e)
      simpa [GuestState.write, hn, Vector.getElem_set_ne _ _ hne] using hzero

/-- Defining a temporary touches no register and keeps the environment canonical. -/
theorem GuestState.Inv.define {g : GuestState} (h : g.Inv) (t : Temp) (v : Word) : (g.define t v).Inv :=
  ⟨h.1, Cells.insert_sorted g.env t v h.2⟩

theorem GuestState.Inv.runStmt {g g' : GuestState} (h : g.Inv) {st : IRStmt} (hrun : Machine.runStmt g st = some g') :
    g'.Inv := by
  cases st with
  | put off e =>
    obtain ⟨v, -, rfl⟩ := Option.map_eq_some_iff.1 hrun
    exact h.write off v
  | wrTmp t e =>
    obtain ⟨v, -, rfl⟩ := Option.map_eq_some_iff.1 hrun
    exact h.define t v

theorem GuestState.Inv.runStmts {stmts : List IRStmt} {g g' : GuestState} (h : g.Inv)
    (hrun : Machine.runStmts stmts g = some g') : g'.Inv := by
  induction stmts generalizing g with
  | nil =>
    cases hrun
    exact h
  | cons st rest ih =>
    rw [Machine.runStmts] at hrun
    split at hrun
    · cases hrun
    · next g₁ hst => exact ih (h.runStmt hst) hrun

/-! ## The call up to dispatch -/

theorem misaligned_eq_false_iff (a : Word) : misaligned a = false ↔ a.toNat % 4 = 0 := by
  simp [misaligned, pcAlign]

/-- On resident bytes at an aligned address, a call is its group's answer and the driver's finish (45_driver.md R113). -/
theorem decodeCall_eq_group (rs : RuleSet) {s : State} {w : InstrWord}
    (hw : lengthDetect s.buffer s.offset = some w) (hal : misaligned s.guestAddress = false) :
    decodeCall rs s = andThen (rs (quadrantOf w.path) w.path (s.inCall w)) finish := by
  simp only [decodeCall, hw, hal]
  rfl

/-- A decode failure starts from `DEFAULTS` only, and does not see where the walk stood. -/
theorem finish_noMatchKept {s s' : State} (hs : s.result = .defaults) (hkept : NoMatchKept s s') :
    finish (.noMatch, s') = takeDecodeFailure s := by
  have hs' : s'.result = .defaults := (congrArg State.result hkept).trans hs
  rw [finish, finishNoMatch, if_pos hs', takeDecodeFailure_eq, takeDecodeFailure_eq, ← hkept]
  rfl

/-- How a call under the contract ends: in the finish of a match the contract allows, or in the decode failure. -/
theorem RuleSet.KeepsContract.decodeCall_cases {rs : RuleSet} (hrs : rs.KeepsContract) {s : State} {w : InstrWord}
    (hw : lengthDetect s.buffer s.offset = some w) (hal : misaligned s.guestAddress = false) :
    (∃ u, MatchKept (quadrantOf w.path) (s.inCall w) u ∧ decodeCall rs s = finishMatch u) ∨
    decodeCall rs s = takeDecodeFailure (s.inCall w) := by
  obtain ⟨a, u, hgroup, hkept⟩ := hrs (quadrantOf w.path) w.path (s.inCall w) rfl
  rw [decodeCall_eq_group rs hw hal, hgroup, andThen_next]
  cases a with
  | matched => exact .inl ⟨u, hkept, rfl⟩
  | noMatch => exact .inr (finish_noMatchKept rfl hkept)

/-! ## Every call under the contract retires soundly -/

theorem DecodeResult.failed_consistent : DecodeResult.failed.Consistent := by decide

/-- An appended statement extends the block and makes it longer. -/
theorem IRBlock.Extends.append {b b' : IRBlock} (h : b'.Extends b) (st : IRStmt) :
    (Machine.append b' st).Extends b ∧ b.stmts.length < (Machine.append b' st).stmts.length := by
  obtain ⟨hstmts, htmps⟩ := h
  refine ⟨⟨hstmts.trans (List.prefix_append _ _), htmps⟩, ?_⟩
  rw [append_stmts, List.length_append, List.length_singleton]
  exact Nat.lt_succ_of_le hstmts.length_le

/-- A block that holds a statement since `b` is longer than `b`. -/
theorem IRBlock.length_lt_of_mem_since {b b' : IRBlock} {st : IRStmt} (h : st ∈ b'.since b) :
    b.stmts.length < b'.stmts.length := by
  have hpos : 0 < (b'.since b).length := List.length_pos_of_mem h
  rw [IRBlock.since, List.length_drop] at hpos
  exact Nat.lt_of_sub_pos hpos

/-- What is true of a call on `s` when it retires `u` with the result `r`: consistent, longer, the surroundings kept. -/
structure State.SoundEnd (s u : State) (r : DecodeResult) : Prop where
  consistent : r.Consistent
  surroundings : u.SameSurroundings s
  extended : u.block.Extends s.block
  longer : s.block.stmts.length < u.block.stmts.length

/-- A match ends soundly: `continue` appends the program-counter write, and `stop` has one from its rule (decision D23). -/
theorem MatchKept.finishMatch_sound {q : Quadrant} {s u : State} {w : InstrWord} (h : MatchKept q (s.inCall w) u) :
    ∃ u' r, finishMatch u = .next (u'.retire r) ∧ s.SoundEnd u' r := by
  cases hnext : u.result.nextAction with
  | goOn =>
    obtain ⟨hextended, hlonger⟩ := h.appended.append
      (.put .pc (.const64 (u.guestAddress + BitVec.ofNat 64 u.result.consumedBytes.bytes)))
    exact ⟨_, _, finishMatch_continue u hnext, h.consistent, h.surroundings, hextended, hlonger⟩
  | stop =>
    obtain ⟨e, he⟩ := h.stopWritesPC hnext
    exact ⟨_, _, finishMatch_stop u hnext, h.consistent, h.surroundings, h.appended, IRBlock.length_lt_of_mem_since he⟩

/-- The decode failure ends soundly: its one appended statement is the rewind. -/
theorem takeDecodeFailure_sound (s : State) (w : InstrWord) :
    ∃ u' r, takeDecodeFailure (s.inCall w) = .next (u'.retire r) ∧ s.SoundEnd u' r := by
  have hself : s.block.Extends s.block := ⟨List.prefix_rfl, List.prefix_rfl⟩
  obtain ⟨hextended, hlonger⟩ := hself.append (.put .pc (.const64 s.guestAddress))
  exact ⟨_, _, takeDecodeFailure_eq _, DecodeResult.failed_consistent, ⟨rfl, rfl, rfl, rfl, rfl, rfl⟩, hextended, hlonger⟩

theorem RuleSet.KeepsContract.decodeCall_sound {rs : RuleSet} (hrs : rs.KeepsContract) {s : State} {w : InstrWord}
    (hw : lengthDetect s.buffer s.offset = some w) (hal : misaligned s.guestAddress = false) :
    ∃ u r, decodeCall rs s = .next (u.retire r) ∧ s.SoundEnd u r := by
  rcases hrs.decodeCall_cases hw hal with ⟨u, hkept, hcall⟩ | hcall
  · rw [hcall]
    exact hkept.finishMatch_sound
  · rw [hcall]
    exact takeDecodeFailure_sound s w

/-! ## One step of this hardware -/

/-- A word that names an instruction runs it, past some rules, and then the finish of a match (log 18). -/
theorem step_of_decodeWord_some {s : State} {w : InstrWord} {i : Instr}
    (hw : lengthDetect s.buffer s.offset = some w) (hal : misaligned s.guestAddress = false)
    (hi : decodeWord w = some i) : ∃ k, step s = andThen (exec i ((s.inCall w).passRules k)) finishMatch := by
  obtain ⟨k, hk⟩ := Group.ofRules_patterns_some (patterns (quadrantOf w.path)) w.path (s.inCall w) i hi
  refine ⟨k, ?_⟩
  have hgroup : ruleSet (quadrantOf w.path) w.path (s.inCall w) =
      andThen (exec i ((s.inCall w).passRules k)) fun u => .next (.matched, u) := hk
  rw [step, decodeCall_eq_group ruleSet hw hal, hgroup]
  cases exec i ((s.inCall w).passRules k) <;> rfl

/-- A word that names no instruction ends in the decode failure (45_driver.md R116). -/
theorem step_of_decodeWord_none {s : State} {w : InstrWord}
    (hw : lengthDetect s.buffer s.offset = some w) (hal : misaligned s.guestAddress = false)
    (hnone : decodeWord w = none) : step s = takeDecodeFailure (s.inCall w) := by
  obtain ⟨k, hk⟩ := Group.ofRules_patterns_none (patterns (quadrantOf w.path)) w.path (s.inCall w) hnone
  have hgroup : ruleSet (quadrantOf w.path) w.path (s.inCall w) = .next (.noMatch, (s.inCall w).passRules k) := hk
  rw [step, decodeCall_eq_group ruleSet hw hal, hgroup, andThen_next]
  exact finish_noMatchKept rfl rfl

/-- What a step that answers a next state has gone through. -/
theorem step_eq_next {s t : State} (h : step s = .next t) :
    ∃ w, lengthDetect s.buffer s.offset = some w ∧ misaligned s.guestAddress = false ∧
      ((∃ i k u, decodeWord w = some i ∧ exec i ((s.inCall w).passRules k) = .next u ∧ finishMatch u = .next t) ∨
       (decodeWord w = none ∧ takeDecodeFailure (s.inCall w) = .next t)) := by
  obtain ⟨w, -, hw, hal, -, -⟩ := decodeCall_eq_next h
  refine ⟨w, hw, hal, ?_⟩
  cases hi : decodeWord w with
  | none => exact .inr ⟨rfl, step_of_decodeWord_none hw hal hi ▸ h⟩
  | some i =>
    obtain ⟨k, hk⟩ := step_of_decodeWord_some hw hal hi
    obtain ⟨u, hexec, hfinish⟩ := andThen_eq_next.1 (hk ▸ h)
    exact .inl ⟨i, k, u, rfl, hexec, hfinish⟩

/-! ## The invariant through a call -/

/-- A statement appended to a well-typed block keeps it so where the statement is typed. -/
theorem IRBlock.wellTyped_append (b : IRBlock) (st : IRStmt) :
    (append b st).wellTyped = (b.wellTyped && st.typed b) := by
  have hsame : IRStmt.typed (append b st) = IRStmt.typed b := by
    funext st'
    cases st' with
    | put off e => cases e <;> rfl
    | wrTmp t e => cases e <;> rfl
  simp [IRBlock.wellTyped, hsame]

/-- The part of the invariant that holds while a call is in progress as well. -/
structure State.CallInv (u : State) : Prop where
  bufferWf : u.buffer.wf = true
  guestInv : u.guest.Inv
  blockTyped : u.block.wellTyped = true

theorem State.Inv.inCall {s : State} (h : s.Inv) (w : InstrWord) : (s.inCall w).CallInv :=
  ⟨h.bufferWf, h.guestInv, h.blockTyped⟩

/-- The walk, the result and the text outputs are no part of it. -/
theorem State.CallInv.of_same {u u' : State} (h : u.CallInv) (hbuffer : u'.buffer = u.buffer)
    (hguest : u'.guest = u.guest) (hblock : u'.block = u.block) : u'.CallInv :=
  ⟨hbuffer ▸ h.bufferWf, hguest ▸ h.guestInv, hblock ▸ h.blockTyped⟩

/-- A constant write is typed wherever it goes. -/
theorem State.CallInv.appendConst {u : State} (h : u.CallInv) (off : Offset) (v : Word) :
    (u.withBlock (append u.block (.put off (.const64 v)))).CallInv := by
  refine ⟨h.bufferWf, h.guestInv, ?_⟩
  rw [State.withBlock_block, IRBlock.wellTyped_append, h.blockTyped]
  rfl

/-- Retiring a call with a consistent result restores the invariant of a state at rest. -/
theorem State.CallInv.retire {u : State} (h : u.CallInv) {r : DecodeResult} (hr : r.Consistent) : (u.retire r).Inv where
  bufferWf := h.bufferWf
  guestInv := h.guestInv
  atRest := ⟨rfl, rfl, rfl, rfl⟩
  outputConsistent := fun _ hout => Option.some.inj hout ▸ hr
  blockTyped := h.blockTyped

/-- The action of `c.lui` always completes: every 5-bit `rd` is a register number. -/
theorem execCLui_eq (rd : BitVec 5) (imm6 : BitVec 6) (s : State) :
    execCLui rd imm6 s = .next (((s.withBlock (append s.block
      (.put (.reg rd.toFin) (.const64 (signExtendValue (cLuiUimm18 imm6) 18))))).withResult
        { s.result with consumedBytes := .two }).traceRule (.instr (.cLui rd imm6))) := by
  simp only [execCLui, cLuiSimm_eq_ok, mkConst64_toInt, putRegister_const64 _ _ rd.isLt, bind, Except.bind, pure,
    Except.pure, conclude_ok]
  rfl

/-- The meaning of an instruction appends constant writes only, to the block of a call in progress. -/
theorem State.CallInv.exec {u u' : State} (h : u.CallInv) {i : Instr} (hexec : Machine.exec i u = .next u') :
    u'.CallInv := by
  cases i with
  | cLui rd imm6 =>
    rw [Machine.exec, execCLui_eq] at hexec
    cases hexec
    exact (h.appendConst _ _).of_same rfl rfl rfl

/-- From a fresh result, an instruction leaves a consistent one (10_state.md R21). -/
theorem exec_result_consistent {u u' : State} (hu : u.result = .defaults) {i : Instr} (hexec : exec i u = .next u') :
    u'.result.Consistent := by
  cases i with
  | cLui rd imm6 =>
    rw [exec, execCLui_eq] at hexec
    cases hexec
    simp only [State.traceRule_result, State.withResult_result, hu]
    decide

theorem State.CallInv.finishMatch {u t : State} (h : u.CallInv) (hr : u.result.Consistent)
    (hfinish : Machine.finishMatch u = .next t) : t.Inv := by
  cases hnext : u.result.nextAction with
  | goOn =>
    rw [finishMatch_continue u hnext] at hfinish
    cases hfinish
    exact (h.appendConst _ _).retire hr
  | stop =>
    rw [finishMatch_stop u hnext] at hfinish
    cases hfinish
    exact h.retire hr

theorem State.CallInv.takeDecodeFailure {u t : State} (h : u.CallInv)
    (hfailure : Machine.takeDecodeFailure u = .next t) : t.Inv := by
  rw [takeDecodeFailure_eq] at hfailure
  cases hfailure
  have hdumped := (h.appendConst .pc u.guestAddress).of_same (State.dumpWord_buffer _) (State.dumpWord_guest _)
    (State.dumpWord_block _)
  exact hdumped.retire DecodeResult.failed_consistent

end Sys2Proof.Machine

/-! ## The obligations of 10_state.md -/

/-- Settles O50: a call under the contract retires in one of three ways, each sound. -/
theorem everyLawfulRuleSetIsSound : Obligations.EveryLawfulRuleSetIsSound := by
  unfold Obligations.EveryLawfulRuleSetIsSound
  intro rs s hrs hresident haligned
  obtain ⟨w, hw⟩ := Option.ne_none_iff_exists'.1 hresident
  obtain ⟨u, r, hcall, hend⟩ := hrs.decodeCall_sound hw ((misaligned_eq_false_iff _).2 haligned)
  obtain ⟨hbuffer, hoffset, haddress, hflag, -, hguest⟩ := hend.surroundings
  exact ⟨u.retire r, r, hcall, rfl, hend.consistent, hend.extended, hend.longer, ⟨rfl, rfl, rfl, rfl⟩,
    hbuffer, hoffset, haddress, hflag, hguest⟩

/-- Settles O52: the call keeps the part of the invariant that holds in progress, and retiring it restores the rest. -/
theorem stepKeepsTheInvariant : Obligations.StepKeepsTheInvariant := by
  unfold Obligations.StepKeepsTheInvariant
  intro s t hinv hstep
  obtain ⟨w, -, -, ⟨i, k, u, -, hexec, hfinish⟩ | ⟨-, hfailure⟩⟩ := step_eq_next hstep
  · have hasked : ((s.inCall w).passRules k).CallInv := (hinv.inCall w).of_same rfl rfl rfl
    exact (hasked.exec hexec).finishMatch (exec_result_consistent rfl hexec) hfinish
  · exact (hinv.inCall w).takeDecodeFailure hfailure

/-- Settles O24, by the read-over-write rules of the guest state. -/
theorem putChangesOneLocation : Obligations.PutChangesOneLocation := by
  unfold Obligations.PutChangesOneLocation
  refine ⟨fun _ _ => rfl, fun _ _ _ => rfl, fun g off e => ⟨fun hnone => ?_, fun v hv => ?_⟩⟩
  · simp [runStmt, hnone]
  · refine ⟨g.write off v, runStmt_put_of_eval off hv, g.write_env off v, g.read_write_same off v, ?_,
      fun off' hne => g.read_write_other off off' v hne⟩
    rintro rfl
    exact g.write_reg_zero v

/-- Settles O26, by induction on the statements of the block. -/
theorem runningABlockKeepsRegisterZero : Obligations.RunningABlockKeepsRegisterZero := by
  unfold Obligations.RunningABlockKeepsRegisterZero
  intro s t hinv hrun
  obtain ⟨g, hg, rfl⟩ := Option.map_eq_some_iff.1 hrun
  exact hinv.runStmts hg

/-- Settles O22: the program counter's write shows through no register read, nor a register's through another's. -/
theorem offsetsDoNotAlias : Obligations.OffsetsDoNotAlias := by
  unfold Obligations.OffsetsDoNotAlias
  intro g n v w
  have hpc : ∀ k, ((g.write (.reg n) v).write .pc w).read (.reg k) = (g.write (.reg n) v).read (.reg k) :=
    fun k => GuestState.read_write_other _ _ _ _ (by simp)
  refine ⟨(g.write (.reg n) v).write .pc w, rfl, rfl, fun hn => ?_, rfl, fun k hk => ?_⟩
  · exact (hpc n).trans (g.read_write_same _ v (by simpa using hn))
  · exact (hpc k).trans (g.read_write_other _ _ v (by simpa using hk))
end

section
/-! PROOFS. The family of 20_memory.md: the buffer's canonical form, what reads of loaded bytes give, what a whole call
leaves as a function of the word and the address, and calls one after another. The rules come first, then the
obligations. -/

open Sys2Proof Sys2Proof.Machine

namespace Sys2Proof.Machine

/-! ## The canonical form of sparse cells -/

/-- A key below every listed one is unlisted. -/
theorem Cells.lookup_eq_none_of_below {β : Type} {m : List (Nat × β)} {a : Nat} (h : ∀ c ∈ m, a < c.1) :
    Cells.lookup m a = none := by
  induction m with
  | nil => rfl
  | cons c rest ih =>
    obtain ⟨k, v⟩ := c
    obtain ⟨hk, hrest⟩ := List.forall_mem_cons.1 h
    rw [Cells.lookup, if_neg (Nat.ne_of_lt hk)]
    exact ih hrest

/-- In canonical form the head's key is the least one that has a value. -/
theorem Cells.head_le_of_lookup {β : Type} {k a : Nat} {v b : β} {rest : List (Nat × β)}
    (h : Cells.sorted ((k, v) :: rest) = true) (hlook : Cells.lookup ((k, v) :: rest) a = some b) : k ≤ a := by
  obtain ⟨-, habove⟩ := (Cells.sorted_cons k v rest).1 h
  refine Nat.le_of_not_lt fun hlt => ?_
  have hnone : Cells.lookup ((k, v) :: rest) a = none :=
    Cells.lookup_eq_none_of_below (List.forall_mem_cons.2 ⟨hlt, fun c hc => Nat.lt_trans hlt (habove c hc)⟩)
  exact absurd (hnone.symm.trans hlook) (Option.some_ne_none b).symm

@[simp] theorem Cells.lookup_head {β : Type} (k : Nat) (v : β) (rest : List (Nat × β)) :
    Cells.lookup ((k, v) :: rest) k = some v := by
  rw [Cells.lookup, if_pos rfl]

/-- In canonical form the tail looks up as the whole does, but for the head's key, which it lacks. -/
theorem Cells.lookup_tail {β : Type} {k : Nat} {v : β} {rest : List (Nat × β)}
    (h : Cells.sorted ((k, v) :: rest) = true) (a : Nat) :
    Cells.lookup rest a = if a = k then none else Cells.lookup ((k, v) :: rest) a := by
  obtain ⟨-, habove⟩ := (Cells.sorted_cons k v rest).1 h
  by_cases hak : a = k
  · rw [if_pos hak, hak]
    exact Cells.lookup_eq_none_of_below habove
  · rw [if_neg hak, Cells.lookup, if_neg hak]

/-- Canonical cells that look up alike are the same list. -/
theorem Cells.eq_of_lookup_eq {β : Type} {m m' : List (Nat × β)} (h : Cells.sorted m = true)
    (h' : Cells.sorted m' = true) (heq : ∀ a, Cells.lookup m a = Cells.lookup m' a) : m = m' := by
  induction m generalizing m' with
  | nil =>
    cases m' with
    | nil => rfl
    | cons c' rest' => exact absurd ((heq c'.1).trans (Cells.lookup_head c'.1 c'.2 rest')) (Option.some_ne_none _).symm
  | cons c rest ih =>
    obtain ⟨k, v⟩ := c
    cases m' with
    | nil => exact absurd ((heq k).symm.trans (Cells.lookup_head k v rest)) (Option.some_ne_none _).symm
    | cons c' rest' =>
      obtain ⟨k', v'⟩ := c'
      have hhead : Cells.lookup ((k', v') :: rest') k = some v := (heq k).symm.trans (Cells.lookup_head k v rest)
      have hhead' : Cells.lookup ((k, v) :: rest) k' = some v' := (heq k').trans (Cells.lookup_head k' v' rest')
      obtain rfl : k = k' := Nat.le_antisymm (Cells.head_le_of_lookup h hhead') (Cells.head_le_of_lookup h' hhead)
      obtain rfl : v' = v := Option.some.inj ((Cells.lookup_head k v' rest').symm.trans hhead)
      have htail : rest = rest' := ih ((Cells.sorted_cons _ _ _).1 h).1 ((Cells.sorted_cons _ _ _).1 h').1 fun a => by
        rw [Cells.lookup_tail h, Cells.lookup_tail h', heq]
      rw [htail]

/-! ## Reading loaded bytes -/

theorem Memory.read_load_inside (m : Memory) (a : Nat) (bytes : List Byte) (k : Nat) (hk : k < bytes.length) :
    (m.load a bytes).read (a + k) = bytes[k]? := by
  induction bytes generalizing m a k with
  | nil => simp at hk
  | cons b bytes ih =>
    rw [Memory.load]
    cases k with
    | zero =>
      exact (Memory.read_load_outside _ (a + 1) a bytes (.inl a.lt_add_one)).trans (Memory.read_write_same m a b)
    | succ k => simpa [Nat.add_assoc, Nat.add_comm 1 k] using ih (m.write a b) (a + 1) k (by simpa using hk)

theorem unitOfBytes_eq_some {bytes : List Byte} {k : Nat} {u : FetchUnit} :
    unitOfBytes bytes k = some u ↔
      ∃ lo hi, bytes[k]? = some lo ∧ bytes[k + 1]? = some hi ∧ u = fetchUnit lo hi := by
  unfold unitOfBytes
  cases bytes[k]? <;> cases bytes[k + 1]? <;> simp [eq_comm]

/-- A fetch unit of the buffer is the unit of a list of bytes wherever its two reads agree with the list. -/
theorem bufRead16_eq_unitOfBytes {m : Memory} {a k : Nat} {bytes : List Byte}
    (hlo : m.read (a + k) = bytes[k]?) (hhi : m.read (a + k + 1) = bytes[k + 1]?) :
    bufRead16 m (a + k) = unitOfBytes bytes k :=
  Option.ext fun u => by rw [bufRead16_eq_some, unitOfBytes_eq_some, hlo, hhi]

theorem bufRead16_load (m : Memory) (a : Nat) (bytes : List Byte) (k : Nat) (hk : k + 1 < bytes.length) :
    bufRead16 (m.load a bytes) (a + k) = unitOfBytes bytes k :=
  bufRead16_eq_unitOfBytes (Memory.read_load_inside m a bytes k (by omega))
    (Memory.read_load_inside m a bytes (k + 1) hk)

/-- The length detector sees no more of its reader than the units at `offset` and `offset + 2`. -/
theorem lengthDetectWith_congr {rd rd' : Nat → Option FetchUnit} {off off' : Nat} (h0 : rd off = rd' off')
    (h2 : rd (off + 2) = rd' (off' + 2)) : lengthDetectWith rd off = lengthDetectWith rd' off' := by
  simp only [lengthDetectWith, h0, h2]

/-- On four loaded bytes the length detector of the buffer is the decoder's on the bytes. -/
theorem lengthDetect_load (m : Memory) (a : Nat) (bytes : List Byte) (h : 4 ≤ bytes.length) :
    lengthDetect (m.load a bytes) a = lengthDetectWith (unitOfBytes bytes) 0 :=
  lengthDetectWith_congr (bufRead16_load m a bytes 0 (by omega)) (bufRead16_load m a bytes 2 (by omega))

/-! ## Missing bytes -/

theorem lengthDetectWith_eq_none {rd : Nat → Option FetchUnit} {off : Nat} :
    lengthDetectWith rd off = none ↔
      rd off = none ∨ ∃ u0, rd off = some u0 ∧ isCompressed u0 = false ∧ rd (off + 2) = none := by
  unfold lengthDetectWith
  cases rd off with
  | none => simp
  | some u0 => cases rd (off + 2) <;> cases hc : isCompressed u0 <;> simp [hc]

theorem bufRead16_eq_none {m : Memory} {off : Nat} :
    bufRead16 m off = none ↔ m.read off = none ∨ m.read (off + 1) = none := by
  unfold bufRead16
  cases m.read off <;> cases m.read (off + 1) <;> simp

/-- The first byte alone tells whether a second unit is needed (41_length_detect.md R72). -/
theorem isCompressed_fetchUnit_eq_false (lo hi : Byte) :
    isCompressed (fetchUnit lo hi) = false ↔ lo.toNat % 4 = 3 := by
  rw [← Bool.not_eq_true, isCompressed_iff, fetchUnit_toNat]
  omega

theorem lengthDetect_eq_none {m : Memory} {off : Nat} :
    lengthDetect m off = none ↔
      m.read off = none ∨ m.read (off + 1) = none ∨
      (∃ lo, m.read off = some lo ∧ lo.toNat % 4 = 3) ∧ (m.read (off + 2) = none ∨ m.read (off + 3) = none) := by
  rw [lengthDetect, lengthDetectWith_eq_none, bufRead16_eq_none, bufRead16_eq_none]
  cases hlo : m.read off with
  | none => simp
  | some lo =>
    cases hhi : m.read (off + 1) with
    | none => simp
    | some hi => simp [bufRead16_eq_some, hlo, hhi, isCompressed_fetchUnit_eq_false]

/-! ## What a whole call leaves, by its word and its address -/

/-- What the action of an instruction appends (44_rule_c_lui.md R105). -/
def actionStmts : Instr → List IRStmt
  | .cLui rd imm6 => [.put (.reg rd.toFin) (.const64 (signExtendValue (cLuiUimm18 imm6) 18))]

/-- What a call on `w` at `a` appends: the action and the next address, or the rewind (45_driver.md R114, R116). -/
def callStmts (w : InstrWord) (a : Word) : List IRStmt :=
  match decodeWord w with
  | some i => actionStmts i ++ [.put .pc (.const64 (a + 2))]
  | none => [.put .pc (.const64 a)]

/-- What a call on `w` returns (45_driver.md R114, R116). -/
def callResult (w : InstrWord) : DecodeResult :=
  match decodeWord w with
  | some _ => { DecodeResult.defaults with consumedBytes := .two }
  | none => .failed

/-- `t` is what a call on `w` makes of `s`: the result and the statements are functions of the word and the address
(45_driver.md R121), and the inputs and the guest state stay. -/
structure CallEnd (s : State) (w : InstrWord) (t : State) : Prop where
  output : t.output = some (callResult w)
  block : t.block = { stmts := s.block.stmts ++ callStmts w s.guestAddress, tmps := s.block.tmps }
  buffer : t.buffer = s.buffer
  offset : t.offset = s.offset
  guestAddress : t.guestAddress = s.guestAddress
  guest : t.guest = s.guest

/-- An action run on a fresh result completes: its statements appended, 2 bytes, the surroundings kept. -/
theorem exec_appends_actionStmts (i : Instr) {u : State} (hu : u.result = .defaults) :
    ∃ u', exec i u = .next u' ∧ u'.SameSurroundings u ∧
      u'.result = { DecodeResult.defaults with consumedBytes := .two } ∧
      u'.block = { stmts := u.block.stmts ++ actionStmts i, tmps := u.block.tmps } := by
  cases i with
  | cLui rd imm6 =>
    exact ⟨_, execCLui_eq rd imm6 u, ⟨rfl, rfl, rfl, rfl, rfl, rfl⟩, by simp [hu], rfl⟩

/-- A word that names an instruction: its action completes and the driver goes on to the next address. -/
theorem finishMatch_exec_callEnd {s : State} {w : InstrWord} {i : Instr} (hi : decodeWord w = some i) (k : Nat) :
    ∃ t, andThen (exec i ((s.inCall w).passRules k)) finishMatch = .next t ∧ CallEnd s w t := by
  obtain ⟨u, hexec, ⟨hbuffer, hoffset, haddress, -, -, hguest⟩, hresult, hblock⟩ :=
    exec_appends_actionStmts i (u := (s.inCall w).passRules k) rfl
  rw [hexec, andThen_next, finishMatch_continue u (by rw [hresult]; rfl)]
  refine ⟨_, rfl, ?_, ?_, hbuffer, hoffset, haddress, hguest⟩
  · rw [State.retire_output, hresult, callResult, hi]
  · rw [State.retire_block, State.withBlock_block, hblock, hresult, haddress, callStmts, hi, append, List.append_assoc]
    rfl

/-- A word that names none: the call ends in the rewind. -/
theorem takeDecodeFailure_callEnd {s : State} {w : InstrWord} (hnone : decodeWord w = none) :
    ∃ t, takeDecodeFailure (s.inCall w) = .next t ∧ CallEnd s w t := by
  rw [takeDecodeFailure_eq]
  exact ⟨_, rfl, by rw [callResult, hnone]; rfl, by rw [callStmts, hnone]; rfl, rfl, rfl, rfl, rfl⟩

/-- On resident bytes at an aligned address a step completes, as the word and the address say. -/
theorem step_callEnd {s : State} {w : InstrWord} (hw : lengthDetect s.buffer s.offset = some w)
    (hal : misaligned s.guestAddress = false) : ∃ t, step s = .next t ∧ CallEnd s w t := by
  cases hi : decodeWord w with
  | some i =>
    obtain ⟨k, hk⟩ := step_of_decodeWord_some hw hal hi
    rw [hk]
    exact finishMatch_exec_callEnd hi k
  | none =>
    rw [step_of_decodeWord_none hw hal hi]
    exact takeDecodeFailure_callEnd hi

/-- A step that completes had its bytes and its alignment, and ended as the word and the address say. -/
theorem callEnd_of_step {s t : State} (h : step s = .next t) :
    ∃ w, lengthDetect s.buffer s.offset = some w ∧ misaligned s.guestAddress = false ∧ CallEnd s w t := by
  obtain ⟨w, hw, hal, -⟩ := step_eq_next h
  obtain ⟨t', ht', hend⟩ := step_callEnd hw hal
  cases ht'.symm.trans h
  exact ⟨w, hw, hal, hend⟩

/-! ## The two stops -/

/-- The alignment check comes after the read and before dispatch, so no rule set is asked (60_exceptions.md R130). -/
theorem decodeCall_of_misaligned (rs : RuleSet) {s : State} {w : InstrWord}
    (hw : lengthDetect s.buffer s.offset = some w) (hmis : misaligned s.guestAddress = true) :
    decodeCall rs s = .fault (.abort .misalignedGuestAddress) := by
  simp only [decodeCall, hw, hmis, if_true]

theorem step_of_lengthDetect_none {s : State} (h : lengthDetect s.buffer s.offset = none) :
    step s = .fault .noStep := by
  simp only [step, decodeCall, h]

/-- No other way out of a call is `noStep`. -/
theorem step_eq_noStep {s : State} : step s = .fault .noStep ↔ lengthDetect s.buffer s.offset = none := by
  refine ⟨fun h => ?_, step_of_lengthDetect_none⟩
  cases hw : lengthDetect s.buffer s.offset with
  | none => rfl
  | some w =>
    cases hmis : misaligned s.guestAddress with
    | true => exact absurd ((decodeCall_of_misaligned ruleSet hw hmis).symm.trans h) (by simp)
    | false =>
      obtain ⟨t, ht, -⟩ := step_callEnd hw hmis
      exact absurd (ht.symm.trans h) (by simp)

/-! ## A presented table word -/

theorem tableBytes_length (nbits n : Nat) : (tableBytes nbits n).length = 4 := rfl

/-- A table word is laid out in four bytes, so the length detector always has a word there. -/
theorem lengthDetect_tableBytes (nbits n : Nat) :
    ∃ w, lengthDetectWith (unitOfBytes (tableBytes nbits n)) 0 = some w := by
  refine Option.ne_none_iff_exists'.1 fun h => ?_
  obtain h | ⟨-, -, -, h⟩ := lengthDetectWith_eq_none.1 h <;> cases h

theorem decodeTableWord_eq {nbits n : Nat} {w : InstrWord}
    (h : lengthDetectWith (unitOfBytes (tableBytes nbits n)) 0 = some w) : decodeTableWord nbits n = decodeWord w := by
  simp only [decodeTableWord, decode, h]
  cases decodeWord w <;> rfl

/-- Rounding down to a multiple of `PC_ALIGN` makes an address aligned. -/
theorem withFetchWord_aligned (s : State) (nbits n : Nat) : (s.withFetchWord nbits n).guestAddress.toNat % 4 = 0 := by
  rw [State.withFetchWord_guestAddress, pcAlign]
  generalize s.guestAddress = a
  have hrem : (BitVec.ofNat 64 (a.toNat % 4)).toNat = a.toNat % 4 := by simp; omega
  rw [BitVec.toNat_sub_of_le (by rw [BitVec.le_def, hrem]; exact Nat.mod_le _ _), hrem]
  omega

/-! ## Calls one after another -/

/-- The call `c` completes on the buffer `m`: its bytes are there and its address is aligned. -/
def Call.Completes (m : Memory) (c : Call) : Prop :=
  lengthDetect m c.offset ≠ none ∧ misaligned c.guestAddress = false

/-- The statements the call `c` appends on the buffer `m`, where it completes: no block or earlier call has a part
in it. -/
def Call.stmts (m : Memory) (c : Call) : List IRStmt :=
  match lengthDetect m c.offset with
  | some w => callStmts w c.guestAddress
  | none => []

theorem Call.stmts_of_word {m : Memory} {c : Call} {w : InstrWord} (hw : lengthDetect m c.offset = some w) :
    c.stmts m = callStmts w c.guestAddress := by
  rw [Call.stmts, hw]

/-- What a call that completes has done: its own statements appended, the buffer and the guest state as they were. -/
theorem completes_of_issue {s t : State} {c : Call} (h : issue s c = .next t) :
    c.Completes s.buffer ∧ t.buffer = s.buffer ∧ t.guest = s.guest ∧
      t.block = { stmts := s.block.stmts ++ c.stmts s.buffer, tmps := s.block.tmps } := by
  obtain ⟨w, hw, hal, hend⟩ := callEnd_of_step h
  refine ⟨⟨Option.ne_none_iff_exists'.2 ⟨w, hw⟩, hal⟩, hend.buffer, hend.guest, ?_⟩
  rw [Call.stmts_of_word (m := s.buffer) hw]
  exact hend.block

/-- On an empty block a call that completes leaves exactly its own statements. -/
theorem Call.Completes.issue_empty {s : State} {c : Call} (h : c.Completes s.buffer) :
    ∃ u, issue { s with block := .empty } c = .next u ∧ u.block.stmts = c.stmts s.buffer := by
  obtain ⟨hresident, hal⟩ := h
  obtain ⟨w, hw⟩ := Option.ne_none_iff_exists'.1 hresident
  obtain ⟨u, hu, hend⟩ := step_callEnd (s := State.present { s with block := .empty } c) hw hal
  rw [Call.stmts_of_word hw]
  exact ⟨u, hu, congrArg IRBlock.stmts hend.block⟩

/-- Calls one after another: each completes on the first one's buffer, and the statements follow in call order. -/
theorem completes_of_issueAll {calls : List Call} {s t : State} (h : issueAll calls s = .next t) :
    (∀ c ∈ calls, c.Completes s.buffer) ∧ t.buffer = s.buffer ∧ t.guest = s.guest ∧
      t.block = { stmts := s.block.stmts ++ (calls.map (Call.stmts s.buffer)).flatten, tmps := s.block.tmps } := by
  induction calls generalizing s with
  | nil =>
    cases h
    refine ⟨fun c hc => absurd hc List.not_mem_nil, rfl, rfl, ?_⟩
    rw [List.map_nil, List.flatten_nil, List.append_nil]
  | cons c cs ih =>
    obtain ⟨s₁, hissue, hrest⟩ := andThen_eq_next.1 h
    obtain ⟨hc, hbuffer₁, hguest₁, hblock₁⟩ := completes_of_issue hissue
    obtain ⟨hcs, hbuffer, hguest, hblock⟩ := ih hrest
    rw [hbuffer₁] at hcs hblock
    refine ⟨List.forall_mem_cons.2 ⟨hc, hcs⟩, hbuffer.trans hbuffer₁, hguest.trans hguest₁, ?_⟩
    rw [hblock, hblock₁, List.map_cons, List.flatten_cons, List.append_assoc]

end Sys2Proof.Machine

/-! ## The obligations of 20_memory.md -/

/-- Settles O57, by induction on the calls: what a call appends is a function of the buffer, which no call changes. -/
theorem blockIsConcatenationOfCalls : Obligations.BlockIsConcatenationOfCalls := by
  unfold Obligations.BlockIsConcatenationOfCalls
  intro calls s t h
  obtain ⟨hcalls, hbuffer, hguest, hblock⟩ := completes_of_issueAll h
  refine ⟨hbuffer, hguest, by rw [hblock], calls.map (Call.stmts s.buffer), List.length_map _, fun k c hc => ?_,
    by rw [hblock]⟩
  obtain ⟨u, hu, hstmts⟩ := (hcalls c (List.mem_of_getElem? hc)).issue_empty
  exact ⟨u, hu, by rw [List.getElem?_map, hc, hstmts, Option.map_some]⟩

/-- Settles O12, by the value of a unit's two bytes. -/
theorem fetchUnitIsLittleEndian : Obligations.FetchUnitIsLittleEndian := by
  unfold Obligations.FetchUnitIsLittleEndian
  intro m off u
  simp only [bufRead16_eq_some, ← BitVec.toNat_inj, fetchUnit_toNat]

/-- Settles O13: the two units of the word, and the two bytes of each. -/
theorem fullWordIsFourBytes : Obligations.FullWordIsFourBytes := by
  unfold Obligations.FullWordIsFourBytes
  intro m off w h
  obtain ⟨u0, h0, ⟨-, hw⟩ | ⟨-, u1, h1, hw⟩⟩ := lengthDetectWith_eq_some.1 h
  · cases hw
  · obtain ⟨b0, b1, hb0, hb1, rfl⟩ := bufRead16_eq_some.1 h0
    obtain ⟨b2, b3, hb2, hb3, rfl⟩ := bufRead16_eq_some.1 h1
    refine ⟨b0, b1, b2, b3, hb0, hb1, hb2, hb3, ?_⟩
    rw [InstrWord.full.inj hw, pairUnits_toNat, fetchUnit_toNat, fetchUnit_toNat]
    omega

/-- Settles O15, by induction on the bytes loaded: a later byte goes to a higher index. -/
theorem loadedBytesRead : Obligations.LoadedBytesRead :=
  Memory.read_load_inside

/-- Settles O16: in canonical form, reading alike is listing alike. -/
theorem canonicalBuffersAreEqual : Obligations.CanonicalBuffersAreEqual :=
  fun _ _ h h' heq => Cells.eq_of_lookup_eq h h' heq

/-- Settles O46: the four bytes put at `offset` are the bytes the decoder of table words reads. -/
theorem presentedWordIsDecodedNext : Obligations.PresentedWordIsDecodedNext := by
  unfold Obligations.PresentedWordIsDecodedNext
  intro s nbits n
  obtain ⟨w, hw⟩ := lengthDetect_tableBytes nbits n
  exact ⟨w, (lengthDetect_load s.buffer s.offset _ (Nat.le_of_eq (tableBytes_length nbits n).symm)).trans hw,
    withFetchWord_aligned s nbits n, (decodeTableWord_eq hw).symm⟩

/-- Settles O47: a step has no outcome exactly where the length detector has no word. -/
theorem noStepExactlyWhenBytesAreMissing : Obligations.NoStepExactlyWhenBytesAreMissing :=
  fun _ => step_eq_noStep.trans lengthDetect_eq_none

/-- Settles O56: the second call reads the same word at the same address. -/
theorem callAgainRepeatsTheOutcome : Obligations.CallAgainRepeatsTheOutcome := by
  unfold Obligations.CallAgainRepeatsTheOutcome
  intro s t h
  obtain ⟨w, hw, hal, ht⟩ := callEnd_of_step h
  obtain ⟨u, hstep, hu⟩ := step_callEnd (s := t) (w := w) (by rw [ht.buffer, ht.offset, hw])
    (by rw [ht.guestAddress, hal])
  refine ⟨ht.buffer, u, callStmts w s.guestAddress, hstep, hu.output.trans ht.output.symm, hu.buffer.trans ht.buffer,
    congrArg IRBlock.stmts ht.block, ?_⟩
  rw [hu.block, ht.guestAddress]

/-- Settles O37: the alignment check precedes dispatch. -/
theorem misalignedAddressAborts : Obligations.MisalignedAddressAborts := by
  unfold Obligations.MisalignedAddressAborts
  intro rs s w hw hmis
  refine decodeCall_of_misaligned rs hw ?_
  rwa [← Bool.not_eq_false, misaligned_eq_false_iff]
end

section
/-! PROOFS. The family of 30_encoding.md: the value of a word on the 32-bit path, and how its low two bits fix its width
class and its length. The rules come first, then the obligation. -/

open Sys2Proof Sys2Proof.Machine

namespace Sys2Proof

/-! ## The word on the 32-bit path -/

/-- Widening to the path keeps a 16-bit word's value. -/
@[simp] theorem InstrWord.path_compressed_toNat (u : BitVec 16) : (InstrWord.compressed u).path.toNat = u.toNat :=
  BitVec.toNat_setWidth_of_le (by decide)

@[simp] theorem InstrWord.path_full (w : BitVec 32) : (InstrWord.full w).path = w := rfl

/-- The low two bits of a paired word are those of its first unit. -/
theorem pairUnits_toNat_mod_four (u0 u1 : FetchUnit) : (pairUnits u0 u1).toNat % 4 = u0.toNat % 4 := by
  rw [pairUnits_toNat]
  omega

/-! ## The width class of a detected word -/

/-- The length detector gives a 16-bit word exactly of those whose low bits are not `0b11`, over any reader of units. -/
theorem lengthDetectWith_width_class {rd : Nat → Option FetchUnit} {off : Nat} {w : InstrWord}
    (h : lengthDetectWith rd off = some w) :
    (w.path.toNat % 4 ≠ 3 ∧ w.width = 16 ∧ w.length = 2) ∨ (w.path.toNat % 4 = 3 ∧ w.width = 32 ∧ w.length = 4) := by
  obtain ⟨u0, -, ⟨hc, rfl⟩ | ⟨hc, u1, -, rfl⟩⟩ := lengthDetectWith_eq_some.1 h
  · refine .inl ⟨?_, rfl, rfl⟩
    rw [InstrWord.path_compressed_toNat]
    exact (isCompressed_iff u0).1 hc
  · refine .inr ⟨?_, rfl, rfl⟩
    rw [InstrWord.path_full, pairUnits_toNat_mod_four]
    simpa [hc] using isCompressed_iff u0

end Sys2Proof

/-! ## The obligation of 30_encoding.md -/

/-- Settles O5: the detector's one test fixes the width class, and the same two bits on the path fix the group. -/
theorem quadrantTellsWidthAndGroup : Obligations.QuadrantTellsWidthAndGroup := by
  unfold Obligations.QuadrantTellsWidthAndGroup
  intro m off w h
  obtain ⟨h00, h01, h10, h11⟩ := quadrantOf_eq_iff w.path
  rw [h00, h01, h10, h11]
  obtain ⟨hlow, hwidth, hlength⟩ | ⟨hlow, hwidth, hlength⟩ := lengthDetectWith_width_class h
  · exact ⟨fun hq => ⟨hwidth, hlength, hq⟩, fun hq => ⟨hwidth, hlength, hq⟩, fun hq => ⟨hwidth, hlength, hq⟩,
      fun hq => absurd hq hlow⟩
  · simp [hlow, hwidth, hlength]
end

section
/-! PROOFS. The family of 40_bitfield_signext.md: the bit-field extractor and the sign-extend unit. Each is tied once to
the library's operation on the same bits, the slice and the sign extension; the obligations follow from those rules. -/

open Sys2Proof Sys2Proof.Machine

namespace Sys2Proof

/-! ## The bit-field extractor -/

/-- Bit `k` of a field is bit `l + k` of the word, up to the field's width. -/
theorem extractField_getLsbD {n : Nat} (w : BitVec n) (h l : Nat) (ok : l ≤ h ∧ h < n) (k : Nat) :
    (extractField w h l ok).getLsbD k = (decide (k < h - l + 1) && w.getLsbD (l + k)) := by
  rw [extractField_eq_extractLsb, BitVec.getLsbD_extractLsb]

/-- Words that agree on the bits `l..h` have the same field there. -/
theorem extractField_congr {n : Nat} {w w' : BitVec n} {h l : Nat} (ok : l ≤ h ∧ h < n)
    (hbits : ∀ k, l ≤ k → k ≤ h → w'.getLsbD k = w.getLsbD k) : extractField w' h l ok = extractField w h l ok := by
  refine BitVec.eq_of_getLsbD_eq fun k hk => ?_
  rw [extractField_getLsbD, extractField_getLsbD, hbits (l + k) (by omega) (by omega)]

/-- The field of all the bits is the word. -/
theorem extractField_whole_toNat {n : Nat} (w : BitVec n) (ok : 0 ≤ n - 1 ∧ n - 1 < n) :
    (extractField w (n - 1) 0 ok).toNat = w.toNat := by
  have hwidth : n - 1 - 0 + 1 = n := by omega
  rw [extractField_toNat, hwidth, Nat.shiftRight_zero, Nat.mod_eq_of_lt w.isLt]

namespace Machine

theorem extractFieldDyn_of_inRange {n : Nat} (w : BitVec n) {h l : Nat} (ok : l ≤ h ∧ h < n) :
    extractFieldDyn w h l = .ok (extractField w h l ok) :=
  dif_pos ok

theorem extractFieldDyn_of_outOfRange {n : Nat} (w : BitVec n) {h l : Nat} (bad : h < l ∨ n ≤ h) :
    extractFieldDyn w h l = .error .extractRange :=
  dif_neg (by omega)

/-! ## The sign-extend unit -/

theorem signExtend_of_width_accepted (value : Word) {width : Nat} (hlow : 1 < width) (hhigh : width < 64) :
    signExtend value width = .ok (signExtendValue value width) :=
  if_pos ⟨hlow, hhigh⟩

theorem signExtend_of_width_rejected (value : Word) {width : Nat} (h : width ≤ 1 ∨ 64 ≤ width) :
    signExtend value width = .error .signExtendWidth :=
  if_neg fun ⟨hlow, hhigh⟩ => h.elim (Nat.not_le_of_lt hlow) (Nat.not_le_of_lt hhigh)

/-- The unit's arithmetic is the library's sign extension of the low `width` bits: being below `2^(width-1)` is
twice the value being below `2^width`. -/
theorem signExtendValue_eq_signExtend (value : Word) {width : Nat} (hpos : 0 < width) :
    signExtendValue value width = (value.setWidth width).signExtend 64 := by
  have hhalf : 2 ^ width = 2 * 2 ^ (width - 1) := by
    rw [← Nat.pow_succ', Nat.succ_eq_add_one, Nat.sub_add_cancel hpos]
  rw [BitVec.signExtend, BitVec.toInt_eq_toNat_cond, BitVec.toNat_setWidth, signExtendValue]
  by_cases hsign : value.toNat % 2 ^ width < 2 ^ (width - 1)
  · rw [if_pos hsign, if_pos (by omega), BitVec.ofInt_natCast]
  · rw [if_neg hsign, if_neg (by omega), Int.natCast_pow, Int.cast_ofNat_Int]

/-- The answer is the low `width` bits read as a two's complement integer. -/
theorem signExtendValue_toInt (value : Word) {width : Nat} (hpos : 0 < width) (hle : width ≤ 64) :
    (signExtendValue value width).toInt = (value.setWidth width).toInt := by
  rw [signExtendValue_eq_signExtend value hpos, BitVec.toInt_signExtend_of_le hle]

/-- The answer keeps the bits below `width` and replicates bit `width - 1` above. -/
theorem signExtendValue_getLsbD (value : Word) {width k : Nat} (hpos : 0 < width) (hk : k < 64) :
    (signExtendValue value width).getLsbD k = if k < width then value.getLsbD k else value.getLsbD (width - 1) := by
  have hlast : width - 1 < width := Nat.sub_one_lt_of_lt hpos
  rw [signExtendValue_eq_signExtend value hpos, BitVec.getLsbD_signExtend, BitVec.msb_eq_getLsbD_last]
  by_cases hbelow : k < width
  · simp [hbelow, hk]
  · simp [hbelow, hk, hlast]

end Machine

end Sys2Proof

/-! ## The obligations of 40_bitfield_signext.md -/

/-- Settles O6: a shift is a division, and a field's bits are the library's slice. -/
theorem extractFieldIsTheSlice : Obligations.ExtractFieldIsTheSlice := by
  unfold Obligations.ExtractFieldIsTheSlice
  intro n w h l ok
  refine ⟨?_, fun k hk => ?_, ?_⟩
  · rw [extractField_toNat, Nat.shiftRight_eq_div_pow]
  · rw [extractField_getLsbD, decide_eq_true (Nat.lt_succ_of_le hk), Bool.true_and]
  · rintro rfl rfl
    exact extractField_whole_toNat w ok

/-- Settles O7: the bound is the field's width, and bit by bit the field reads inside `l..h` only. -/
theorem extractFieldIgnoresOtherBits : Obligations.ExtractFieldIgnoresOtherBits := by
  unfold Obligations.ExtractFieldIgnoresOtherBits
  exact fun n w h l ok => ⟨(extractField w h l ok).isLt, fun w' hbits => extractField_congr ok hbits⟩

/-- Settles O8: the two clauses are the two branches of the range check. -/
theorem dynamicExtractChecksRange : Obligations.DynamicExtractChecksRange :=
  fun _ w _ _ => ⟨extractFieldDyn_of_inRange w, extractFieldDyn_of_outOfRange w⟩

/-- Settles O9, by the value of the low `n` bits, which for `v` carried on 64 bits are `v` on `n` bits. -/
theorem signExtendIsTwosComplement : Obligations.SignExtendIsTwosComplement := by
  unfold Obligations.SignExtendIsTwosComplement
  refine ⟨fun n v hlow hhigh _ => ?_, rfl, rfl⟩
  have hle : n ≤ 64 := by omega
  refine ⟨_, signExtend_of_width_accepted _ hlow (Nat.lt_succ_of_le hhigh), ?_⟩
  rw [signExtendValue_toInt _ (Nat.zero_lt_of_lt hlow) hle, BitVec.setWidth_ofNat_of_le hle]

/-- Settles O10, by the bits of the library's sign extension of the low `width` bits. -/
theorem signExtendReplicatesTheSignBit : Obligations.SignExtendReplicatesTheSignBit := by
  unfold Obligations.SignExtendReplicatesTheSignBit
  intro value width hlow hhigh
  exact ⟨_, signExtend_of_width_accepted value hlow hhigh,
    fun k hk => signExtendValue_getLsbD value (Nat.zero_lt_of_lt hlow) hk⟩

/-- Settles O11: the two branches of the width check, and the width the rule set passes. -/
theorem signExtendChecksWidth : Obligations.SignExtendChecksWidth := by
  unfold Obligations.SignExtendChecksWidth
  refine ⟨fun value width h => signExtend_of_width_rejected value h, fun value width hlow hhigh => ?_, fun _ => rfl⟩
  exact ⟨_, signExtend_of_width_accepted value hlow hhigh⟩
end

section
/-! PROOFS. The family of 41_length_detect.md: what the length detector answers on each of its two branches, from the low
bits of the first unit, over any reader of units; then the obligation. -/

open Sys2Proof Sys2Proof.Machine

namespace Sys2Proof

theorem isCompressed_eq_false_iff (u : FetchUnit) : isCompressed u = false ↔ u.toNat % 4 = 3 := by
  rw [← Bool.not_eq_true, isCompressed_iff]
  omega

/-- The first unit alone is the word (41_length_detect.md R72). -/
theorem lengthDetectWith_of_low_ne_three {rd : Nat → Option FetchUnit} {off : Nat} {u0 : FetchUnit}
    (h0 : rd off = some u0) (hlow : u0.toNat % 4 ≠ 3) : lengthDetectWith rd off = some (.compressed u0) :=
  lengthDetectWith_eq_some.2 ⟨u0, h0, .inl ⟨(isCompressed_iff u0).2 hlow, rfl⟩⟩

/-- The two units paired are the word (41_length_detect.md R73). -/
theorem lengthDetectWith_of_low_eq_three {rd : Nat → Option FetchUnit} {off : Nat} {u0 u1 : FetchUnit}
    (h0 : rd off = some u0) (hlow : u0.toNat % 4 = 3) (h1 : rd (off + 2) = some u1) :
    lengthDetectWith rd off = some (.full (pairUnits u0 u1)) :=
  lengthDetectWith_eq_some.2 ⟨u0, h0, .inr ⟨(isCompressed_eq_false_iff u0).2 hlow, u1, h1, rfl⟩⟩

end Sys2Proof

/-! ## The obligation of 41_length_detect.md -/

/-- Settles O14: the two clauses are the detector's two branches, and the second unit, 16 bits up, leaves the low two bits
of the pair to the first. -/
theorem lengthFromLowBits : Obligations.LengthFromLowBits := by
  unfold Obligations.LengthFromLowBits
  intro m off u0 h0
  refine ⟨fun hlow => ⟨lengthDetectWith_of_low_ne_three h0 hlow, rfl⟩, fun hlow u1 h1 => ?_⟩
  have hword : lengthDetect m off = some (.full (pairUnits u0 u1)) := lengthDetectWith_of_low_eq_three h0 hlow h1
  exact ⟨pairUnits u0 u1, hword, rfl, pairUnits_toNat u0 u1, (pairUnits_toNat_mod_four u0 u1).trans hlow⟩
end

section
/-! PROOFS. The family of 42_register_model_ir.md: what each register-model and IR helper answers on each branch of its
checks, what the definition of a temporary changes, and that statements run in block order; then the obligations. -/

open Sys2Proof Sys2Proof.Machine

namespace Sys2Proof.Machine

/-! ## Statements in block order -/

theorem runStmts_cons (st : IRStmt) (rest : List IRStmt) (g : GuestState) :
    runStmts (st :: rest) g = (runStmt g st).bind (runStmts rest) := by
  cases h : runStmt g st <;> simp [runStmts, h]

/-- The first part's guest state, where it has one, is the second part's start. -/
theorem runStmts_append (xs ys : List IRStmt) (g : GuestState) :
    runStmts (xs ++ ys) g = (runStmts xs g).bind (runStmts ys) := by
  induction xs generalizing g with
  | nil => rfl
  | cons st rest ih =>
    calc runStmts (st :: (rest ++ ys)) g
        = (runStmt g st).bind (runStmts (rest ++ ys)) := runStmts_cons st _ g
      _ = (runStmt g st).bind fun g' => (runStmts rest g').bind (runStmts ys) := by rw [funext ih]
      _ = ((runStmt g st).bind (runStmts rest)).bind (runStmts ys) := (Option.bind_assoc _ _ _).symm
      _ = (runStmts (st :: rest) g).bind (runStmts ys) := by rw [runStmts_cons]

/-! ## Definitions of temporaries -/

/-- A definition runs exactly as its expression evaluates. -/
theorem runStmt_wrTmp_of_eval {g : GuestState} {e : IRExpr} {v : Word} (t : Temp) (h : evalExpr g e = some v) :
    runStmt g (.wrTmp t e) = some (g.define t v) := by
  simp [runStmt, h]

theorem runStmt_wrTmp_of_eval_none {g : GuestState} {e : IRExpr} (t : Temp) (h : evalExpr g e = none) :
    runStmt g (.wrTmp t e) = none := by
  simp [runStmt, h]

@[simp] theorem GuestState.define_regs (g : GuestState) (t : Temp) (v : Word) : (g.define t v).regs = g.regs := rfl
@[simp] theorem GuestState.define_pc (g : GuestState) (t : Temp) (v : Word) : (g.define t v).pc = g.pc := rfl

/-- A location's value does not depend on the temporaries. -/
@[simp] theorem GuestState.read_define (g : GuestState) (t : Temp) (v : Word) (off : Offset) :
    (g.define t v).read off = g.read off := by
  cases off <;> rfl

theorem evalExpr_rdTmp_of_env_nil {g : GuestState} (t : Temp) (h : g.env = []) : evalExpr g (.rdTmp t) = none := by
  rw [evalExpr, h, Cells.lookup_nil]

theorem evalExpr_define_same (g : GuestState) (t : Temp) (v : Word) :
    evalExpr (g.define t v) (.rdTmp t) = some v :=
  Cells.lookup_insert_same g.env t v

theorem evalExpr_define_other (g : GuestState) (v : Word) {t t' : Temp} (h : t' ≠ t) :
    evalExpr (g.define t v) (.rdTmp t') = evalExpr g (.rdTmp t') :=
  Cells.lookup_insert_other g.env t t' v h

/-! ## The register model -/

theorem getRegister_of_lt {n : Nat} (hn : n < 32) : getRegister n = .ok (.get (regOffset ⟨n, hn⟩) .i64) :=
  dif_pos hn

theorem getRegister_of_out_of_range {n : Nat} (hn : 31 < n) : getRegister n = .error .registerRange :=
  dif_neg (Nat.not_lt_of_le hn)

/-- The range is checked first, so the expression does not matter (decision D27). -/
theorem putRegister_of_out_of_range (b : IRBlock) (e : IRExpr) {n : Nat} (hn : 31 < n) :
    putRegister b n e = .error .registerRange :=
  dif_neg (Nat.not_lt_of_le hn)

theorem putRegister_of_type_ne_i64 {b : IRBlock} {e : IRExpr} {n : Nat} (hn : n < 32) (hty : typeOf b e ≠ some .i64) :
    putRegister b n e = .error .registerWriteType := by
  rw [putRegister, dif_pos hn, if_neg hty]

theorem putRegister_of_type_i64 {b : IRBlock} {e : IRExpr} {n : Nat} (hn : n < 32) (hty : typeOf b e = some .i64) :
    putRegister b n e = .ok (append b (.put (regOffset ⟨n, hn⟩) e)) := by
  rw [putRegister, dif_pos hn, if_pos hty]

theorem putPC_of_type_ne_i64 {b : IRBlock} {e : IRExpr} (hty : typeOf b e ≠ some .i64) :
    putPC b e = .error .registerWriteType :=
  if_neg hty

theorem putPC_of_type_i64 {b : IRBlock} {e : IRExpr} (hty : typeOf b e = some .i64) :
    putPC b e = .ok (append b (.put pcOffset e)) :=
  if_pos hty

/-! ## New temporaries -/

theorem typeOf_newTemp_self (b : IRBlock) (ty : IRType) :
    typeOf (newTemp b ty).2 (.rdTmp (newTemp b ty).1) = some ty := by
  simp [typeOf]

theorem typeOf_newTemp_of_registered (b : IRBlock) (ty : IRType) {t : Temp} (ht : t < b.tmps.length) :
    typeOf (newTemp b ty).2 (.rdTmp t) = typeOf b (.rdTmp t) :=
  List.getElem?_append_left ht

end Sys2Proof.Machine

/-! ## The obligations of 42_register_model_ir.md -/

/-- Settles O23, by induction on the first list of statements. -/
theorem statementsRunInOrder : Obligations.StatementsRunInOrder :=
  runStmts_append

/-- Settles O25: the environment's cells read back what was inserted, and no location reads the environment. -/
theorem definitionChangesOneTemporary : Obligations.DefinitionChangesOneTemporary := by
  unfold Obligations.DefinitionChangesOneTemporary
  refine ⟨fun g t henv => evalExpr_rdTmp_of_env_nil t henv, fun g t e => ⟨runStmt_wrTmp_of_eval_none t, fun v hv => ?_⟩⟩
  exact ⟨g.define t v, runStmt_wrTmp_of_eval t hv, evalExpr_define_same g t v,
    fun t' ht => evalExpr_define_other g v ht, g.define_regs t v, g.define_pc t v, g.read_define t v⟩

/-- Settles O17: the two branches of the range check. -/
theorem getRegisterReadsInRange : Obligations.GetRegisterReadsInRange :=
  ⟨fun _ hn => getRegister_of_lt hn, fun _ hn => getRegister_of_out_of_range hn⟩

/-- Settles O18: the three ends of the two checks, in their order. -/
theorem putRegisterAppendsOrAborts : Obligations.PutRegisterAppendsOrAborts :=
  fun b _ e => ⟨putRegister_of_out_of_range b e, putRegister_of_type_ne_i64, putRegister_of_type_i64⟩

/-- Settles O19: the two branches of the type check. -/
theorem putPCAppendsOrAborts : Obligations.PutPCAppendsOrAborts :=
  fun _ _ => ⟨putPC_of_type_ne_i64, putPC_of_type_i64⟩

/-- Settles O20: a remainder modulo `2 ^ 64` is not negative, so the constant's unsigned value is the remainder itself. -/
theorem constantIsModuloTwoToTheSixtyFour : Obligations.ConstantIsModuloTwoToTheSixtyFour := by
  unfold Obligations.ConstantIsModuloTwoToTheSixtyFour
  refine ⟨fun v => ⟨BitVec.ofInt 64 v, rfl, ?_⟩, rfl⟩
  have hnonneg : 0 ≤ v % 2 ^ 64 := Int.emod_nonneg v (by decide)
  rw [BitVec.toNat_ofInt]
  exact Int.toNat_of_nonneg hnonneg

/-- Settles O21: the registry grows by one type at its end, which the answered index names. -/
theorem newTempIsNextFreeIndex : Obligations.NewTempIsNextFreeIndex :=
  fun b ty => ⟨newTemp_fst b ty, typeOf_newTemp_self b ty, newTemp_stmts b ty,
    fun _ ht => typeOf_newTemp_of_registered b ty ht⟩
end

section
/-! PROOFS. The family of 43_quadrant_dispatch.md: the walk of a group over its rules, why the order of rules that do not
overlap does not matter, the contract from rules to groups to whole calls, and the rule set of this hardware. The rules
come first, then the obligations. -/

open Sys2Proof Sys2Proof.Machine

namespace Sys2Proof

/-! ## The walk over patterns -/

/-- Without overlap, the pattern that claims a word is the one the walk finds. -/
theorem firstMatch_of_claims {ps : List Pattern} (hno : Machine.NonOverlapping (ps.map Machine.ruleOf)) {p : Pattern}
    (hp : p ∈ ps) {word : BitVec 32} (hfixed : p.fixed word = true) (hlegal : p.legal word = true) :
    firstMatch ps word = some (p.instr word) := by
  induction ps with
  | nil => cases hp
  | cons p' ps ih =>
    obtain ⟨hhead, hno⟩ := List.pairwise_cons.1 hno
    rcases List.mem_cons.1 hp with rfl | hp
    · exact if_pos (by rw [hfixed, hlegal]; rfl)
    · have hpass : ¬ (p'.fixed word && p'.legal word) = true := by
        rw [Bool.and_eq_true]
        exact fun hclaim => hhead (Machine.ruleOf p) (List.mem_map_of_mem hp) ⟨word, hclaim, hfixed, hlegal⟩
      exact (if_neg hpass).trans (ih hno hp)

/-- Without overlap, the walk finds the same instruction in every order of the patterns (43_quadrant_dispatch.md R99). -/
theorem firstMatch_perm {ps qs : List Pattern} (hno : Machine.NonOverlapping (ps.map Machine.ruleOf)) (hperm : ps.Perm qs)
    (word : BitVec 32) : firstMatch ps word = firstMatch qs word := by
  cases hfound : firstMatch ps word with
  | none => exact (firstMatch_eq_none.2 fun q hq => firstMatch_eq_none.1 hfound q (hperm.mem_iff.2 hq)).symm
  | some i =>
    obtain ⟨p, hp, hfixed, hlegal, rfl⟩ := firstMatch_eq_some hfound
    exact (firstMatch_of_claims (hno.perm (hperm.map _)) (hperm.mem_iff.1 hp) hfixed hlegal).symm

/-- Outside quadrant `01` there are no patterns (43_quadrant_dispatch.md R101, decision D18). -/
theorem patterns_eq_nil {q : Quadrant} (hq : q ≠ .q01) : patterns q = [] := by
  cases q with
  | q01 => exact absurd rfl hq
  | q00 | q10 | q11 => rfl

theorem mem_patterns {q : Quadrant} {p : Pattern} (hp : p ∈ patterns q) : q = .q01 ∧ p = cLuiPattern := by
  by_cases hq : q = .q01
  · subst hq
    exact ⟨rfl, List.mem_singleton.1 hp⟩
  · simp [patterns_eq_nil hq] at hp

theorem decodeWord_eq_none_of_quadrant {w : InstrWord} (hq : quadrantOf w.path ≠ .q01) : decodeWord w = none := by
  rw [decodeWord, patterns_eq_nil hq, firstMatch]

namespace Machine

/-! ## The walk over rules -/

/-- Rules that do not claim the word are walked past with no effect but the index (43_quadrant_dispatch.md R96, R97). -/
theorem Group.ofRules_append_of_passed {pre : List Rule} {word : BitVec 32}
    (hpre : ∀ p ∈ pre, ¬ (p.fixed word = true ∧ p.legal word = true)) (rest : List Rule) (s : State) :
    Group.ofRules (pre ++ rest) word s = Group.ofRules rest word (s.passRules pre.length) := by
  induction pre generalizing s with
  | nil => rfl
  | cons p pre ih =>
    obtain ⟨hp, hpre⟩ := List.forall_mem_cons.1 hpre
    calc Group.ofRules (p :: pre ++ rest) word s
        = Group.ofRules (pre ++ rest) word (s.passRules 1) := if_neg (by rwa [Bool.and_eq_true])
      _ = Group.ofRules rest word (s.passRules (p :: pre).length) := by
        rw [ih hpre, State.passRules_passRules, List.length_cons, Nat.add_comm]

/-- The rule at the head of the walk fires where it claims the word. -/
theorem Group.ofRules_cons_of_claims {r : Rule} {word : BitVec 32} (hfixed : r.fixed word = true)
    (hlegal : r.legal word = true) (post : List Rule) (s : State) :
    Group.ofRules (r :: post) word s = r.fire word s :=
  if_pos (by rw [hfixed, hlegal]; rfl)

/-- A word that no rule claims is walked past the whole list. -/
theorem Group.ofRules_of_passed {rules : List Rule} {word : BitVec 32}
    (hnone : ∀ r ∈ rules, ¬ (r.fixed word = true ∧ r.legal word = true)) (s : State) :
    Group.ofRules rules word s = .next (.noMatch, s.passRules rules.length) := by
  simpa [Group.ofRules] using Group.ofRules_append_of_passed hnone [] s

/-- No two rules of a list without overlap claim one word, so one that all its rules claim is no longer than one rule. -/
theorem NonOverlapping.length_le_one_of_claims {rules : List Rule} (h : NonOverlapping rules) {word : BitVec 32}
    (hclaim : ∀ r ∈ rules, r.fixed word = true ∧ r.legal word = true) : rules.length ≤ 1 := by
  match rules with
  | [] | [_] => simp
  | r :: r' :: _ =>
    have hno : ¬ r.Overlaps r' := (List.pairwise_cons.1 h).1 r' (by simp)
    exact absurd ⟨word, hclaim r (by simp), hclaim r' (by simp)⟩ hno

theorem NonOverlapping.claimants_length_le_one {rules : List Rule} (h : NonOverlapping rules) (word : BitVec 32) :
    (rules.filter fun r => r.fixed word && r.legal word).length ≤ 1 :=
  have hno : NonOverlapping (rules.filter fun r => r.fixed word && r.legal word) := h.filter _
  hno.length_le_one_of_claims fun _ hr => Bool.and_eq_true_iff.1 (List.mem_filter.1 hr).2

/-- Without overlap one rule fires on a word in every order of the list, or none does in any. -/
theorem NonOverlapping.ofRules_perm_cases {rules rules' : List Rule} (h : NonOverlapping rules)
    (hperm : rules.Perm rules') (word : BitVec 32) (s : State) :
    (∃ r ∈ rules, r.fixed word = true ∧ r.legal word = true ∧ ∃ k k',
      Group.ofRules rules word s = r.fire word (s.passRules k) ∧
      Group.ofRules rules' word s = r.fire word (s.passRules k')) ∨
    ((∀ r ∈ rules, ¬ (r.fixed word = true ∧ r.legal word = true)) ∧
      Group.ofRules rules word s = .next (.noMatch, s.passRules rules.length) ∧
      Group.ofRules rules' word s = .next (.noMatch, s.passRules rules.length)) := by
  by_cases hclaim : ∃ r ∈ rules, r.fixed word = true ∧ r.legal word = true
  · obtain ⟨r, hr, hfixed, hlegal⟩ := hclaim
    obtain ⟨k, hk⟩ := h.fires hr hfixed hlegal s
    obtain ⟨k', hk'⟩ := (h.perm hperm).fires (hperm.mem_iff.1 hr) hfixed hlegal s
    exact .inl ⟨r, hr, hfixed, hlegal, k, k', hk, hk'⟩
  · have hpass : ∀ r ∈ rules, ¬ (r.fixed word = true ∧ r.legal word = true) := fun r hr hc => hclaim ⟨r, hr, hc⟩
    have hpass' : ∀ r ∈ rules', ¬ (r.fixed word = true ∧ r.legal word = true) :=
      fun r hr => hpass r (hperm.mem_iff.2 hr)
    exact .inr ⟨hpass, Group.ofRules_of_passed hpass s, hperm.length_eq ▸ Group.ofRules_of_passed hpass' s⟩

/-! ## The order of rules through a whole call -/

theorem andThen_assoc {α β γ : Type} (x : Host.Outcome α Fault Refusal) (f : α → Host.Outcome β Fault Refusal)
    (g : β → Host.Outcome γ Fault Refusal) : andThen (andThen x f) g = andThen x fun a => andThen (f a) g := by
  cases x <;> rfl

/-- Where the walk stood when a rule fired is not seen by the action (R95) nor by the driver's finish. -/
theorem Rule.IgnoresIndex.finish_fire {r : Rule} (h : r.IgnoresIndex) (word : BitVec 32) (s : State) (k : Nat) :
    andThen (r.fire word (s.passRules k)) finish = andThen (r.action word s) finishMatch := by
  simp only [Rule.fire, h word s k, andThen_assoc, andThen_next, finish, finishMatch_passRules]

/-- Without overlap, the order of rules that read no place in the list does not show past the driver's finish. -/
theorem NonOverlapping.finish_ofRules_perm {rules rules' : List Rule} (h : NonOverlapping rules)
    (hindex : ∀ r ∈ rules, r.IgnoresIndex) (hperm : rules.Perm rules') (word : BitVec 32) (s : State) :
    andThen (Group.ofRules rules word s) finish = andThen (Group.ofRules rules' word s) finish := by
  rcases h.ofRules_perm_cases hperm word s with ⟨r, hr, -, -, k, k', hk, hk'⟩ | ⟨-, hnone, hnone'⟩
  · rw [hk, hk', (hindex r hr).finish_fire, (hindex r hr).finish_fire]
  · rw [hnone, hnone']

/-- A dispatched call is the selected group's answer and the driver's finish (43_quadrant_dispatch.md R91, R104). -/
theorem dispatchCall_eq_group (rs : RuleSet) (w : InstrWord) (s : State) :
    dispatchCall rs w (s.startCall.withWord w) =
      andThen (rs (quadrantOf w.path) w.path (s.inCall w)) finish := rfl

/-- Only the dispatched part of a call depends on the rule set. -/
theorem decodeCall_congr {rs rs' : RuleSet} {s : State}
    (h : ∀ w, dispatchCall rs w (s.startCall.withWord w) = dispatchCall rs' w (s.startCall.withWord w)) :
    decodeCall rs s = decodeCall rs' s := by
  simp only [decodeCall, h]

/-! ## The contract of a rule, of a group, of this hardware -/

/-- The walk's index is no part of what a match keeps. -/
theorem MatchKept.of_passRules {q : Quadrant} {s s' : State} {k : Nat} (h : MatchKept q (s.passRules k) s') :
    MatchKept q s s' :=
  ⟨h.surroundings, h.consumed, h.consistent, h.built, h.stopWritesPC, h.continueLeavesPC, h.traced⟩

theorem Group.ofRules_keepsContract {q : Quadrant} {rules : List Rule} (h : ∀ r ∈ rules, Rule.KeepsContract q r) :
    Group.KeepsContract q (Group.ofRules rules) := by
  intro word s hs
  rcases Group.ofRules_cases rules word s with ⟨pre, r, post, rfl, -, hfixed, hlegal, hfire⟩ | ⟨-, hnone⟩
  · obtain ⟨s', haction, hkept⟩ := h r (by simp) word (s.passRules pre.length) hs hfixed hlegal
    exact ⟨.matched, s', by rw [hfire, Rule.fire, haction, andThen_next], hkept.of_passRules⟩
  · exact ⟨.noMatch, _, hnone, rfl⟩

theorem RuleLists.Lawful.keepsContract {rules : RuleLists} (h : rules.Lawful) :
    RuleSet.KeepsContract (RuleSet.ofRules rules) :=
  fun q => Group.ofRules_keepsContract (h.contract q)

/-- The meaning of an instruction does not see where the walk stood. -/
theorem ruleOf_ignoresIndex (p : Pattern) : (ruleOf p).IgnoresIndex := by
  intro word s k
  cases hi : p.instr word with
  | cLui rd imm6 => simp only [ruleOf, hi, exec, execCLui_eq]; rfl

/-- The action of `c.lui` leaves what a match of Group01 may: one register write, 2 bytes, `continue`, the trace line
(44_rule_c_lui.md R105). -/
theorem execCLui_matchKept (rd : BitVec 5) (imm6 : BitVec 6) {s : State} (hs : s.result = .defaults) :
    ∃ s', execCLui rd imm6 s = .next s' ∧ MatchKept .q01 s s' := by
  refine ⟨_, execCLui_eq rd imm6 s, ?_⟩
  exact {
    surroundings := ⟨rfl, rfl, rfl, rfl, rfl, rfl⟩
    consumed := rfl
    consistent := by
      rw [State.traceRule_result, State.withResult_result, hs]
      decide
    built := .register ((congrArg _ (mkConst64_toInt _)).trans (putRegister_const64 s.block rd.toNat rd.isLt _))
    stopWritesPC := fun hstop => by simp [hs, DecodeResult.defaults] at hstop
    continueLeavesPC := fun _ e => by simp
    traced := ⟨_, State.traceRule_cases ((s.withBlock _).withResult _) _⟩ }

theorem mem_ruleLists {q : Quadrant} {r : Rule} (hr : r ∈ ruleLists q) : q = .q01 ∧ r = ruleOf cLuiPattern := by
  obtain ⟨p, hp, rfl⟩ := List.mem_map.1 hr
  obtain ⟨hq, rfl⟩ := mem_patterns hp
  exact ⟨hq, rfl⟩

theorem ruleLists_nonOverlapping (q : Quadrant) : NonOverlapping (ruleLists q) := by
  cases q with
  | q01 => exact List.pairwise_singleton _ _
  | q00 | q10 | q11 => exact List.Pairwise.nil

theorem ruleLists_lawful : ruleLists.Lawful where
  contract := by
    intro q r hr
    obtain ⟨rfl, rfl⟩ := mem_ruleLists hr
    exact fun word s hs _ _ => execCLui_matchKept (cLuiRd word) (cLuiImm6 word) hs
  ignoresIndex := by
    intro q r hr
    obtain ⟨-, rfl⟩ := mem_ruleLists hr
    exact ruleOf_ignoresIndex cLuiPattern
  nonOverlapping := ruleLists_nonOverlapping

/-! ## The IR a call under the contract appends -/

/-- What is appended last is the last of what was appended. -/
theorem IRBlock.Extends.since_append {b b' : IRBlock} (h : b'.Extends b) (st : IRStmt) :
    (Machine.append b' st).since b = b'.since b ++ [st] :=
  List.drop_append_of_le_length h.1.length_le

theorem typeOf_append (b : IRBlock) (st : IRStmt) (e : IRExpr) : typeOf (append b st) e = typeOf b e := by
  cases e <;> rfl

/-- Every write built through the helpers has type `I64` (42_register_model_ir.md R84). -/
theorem IRBlock.Builds.typeOf_put {b b' : IRBlock} (h : b.Builds b') {off : Offset} {e : IRExpr}
    (hmem : .put off e ∈ b'.since b) : typeOf b' e = some .i64 := by
  obtain ⟨new, hstmts, -, htyped⟩ := h.cases_of
  rw [IRBlock.since, hstmts, List.drop_left] at hmem
  exact htyped off e hmem

/-- What a call at `a` that returns `r` has appended to `b` where the block is `b'` at its end: writes of type `I64`; with
`continue` the next address last, and no other write of the program counter; with `stop` some write of it. -/
structure IRBlock.OrderlyEnd (b b' : IRBlock) (a : Word) (r : DecodeResult) : Prop where
  typed : ∀ off e, .put off e ∈ b'.since b → typeOf b' e = some .i64
  advances : r.nextAction = .goOn → ∃ body, (∀ e, .put .pc e ∉ body) ∧
    b'.since b = body ++ [.put pcOffset (.const64 (a + BitVec.ofNat 64 r.consumedBytes.bytes))]
  writesPC : r.nextAction = .stop → ∃ e, .put pcOffset e ∈ b'.since b

/-- A match ends orderly: `continue` appends the next address after what the rule built, and `stop` leaves the rule's own
program-counter write (decision D23). -/
theorem MatchKept.finishMatch_orderly {q : Quadrant} {s u t : State} (h : MatchKept q s u)
    (hfinish : finishMatch u = .next t) :
    t.output = some u.result ∧ s.block.OrderlyEnd t.block s.guestAddress u.result := by
  obtain ⟨-, -, haddress, -, -, -⟩ := h.surroundings
  cases hnext : u.result.nextAction with
  | goOn =>
    rw [finishMatch_continue u hnext, haddress] at hfinish
    cases hfinish
    refine ⟨rfl, fun off e hmem => ?_, fun _ => ⟨_, h.continueLeavesPC hnext, h.appended.since_append _⟩,
      fun hstop => absurd (hnext.symm.trans hstop) (by decide)⟩
    rw [State.retire_block, State.withBlock_block] at hmem ⊢
    rw [h.appended.since_append, List.mem_append, List.mem_singleton] at hmem
    rw [typeOf_append]
    rcases hmem with hbuilt | hlast
    · exact h.built.typeOf_put hbuilt
    · cases hlast
      exact typeOf_const64 _ _
  | stop =>
    rw [finishMatch_stop u hnext] at hfinish
    cases hfinish
    exact ⟨rfl, fun _ _ hmem => h.built.typeOf_put hmem, fun hgo => absurd (hnext.symm.trans hgo) (by decide),
      h.stopWritesPC⟩

/-- The decode failure ends orderly: it stops, and its one statement is the rewind (45_driver.md R116). -/
theorem takeDecodeFailure_orderly {s t : State} (hfailure : takeDecodeFailure s = .next t) :
    t.output = some .failed ∧ s.block.OrderlyEnd t.block s.guestAddress .failed := by
  rw [takeDecodeFailure_eq] at hfailure
  cases hfailure
  have hsince : (append s.block (.put .pc (.const64 s.guestAddress))).since s.block = [.put .pc (.const64 s.guestAddress)] :=
    IRBlock.since_append _ _
  refine ⟨rfl, fun off e hmem => ?_, fun hgo => absurd hgo (by decide), fun _ => ⟨.const64 s.guestAddress, ?_⟩⟩
  · cases List.mem_singleton.1 (hsince ▸ hmem)
    exact typeOf_const64 _ _
  · exact hsince ▸ List.mem_singleton_self _

theorem RuleSet.KeepsContract.decodeCall_orderly {rs : RuleSet} (hrs : rs.KeepsContract) {s t : State}
    (hcall : decodeCall rs s = .next t) :
    ∃ r, t.output = some r ∧ s.block.OrderlyEnd t.block s.guestAddress r := by
  obtain ⟨w, -, hw, hal, -, -⟩ := decodeCall_eq_next hcall
  rcases hrs.decodeCall_cases hw hal with ⟨u, hkept, hend⟩ | hend
  · exact ⟨_, hkept.finishMatch_orderly (hend.symm.trans hcall)⟩
  · exact ⟨_, takeDecodeFailure_orderly (s := s.inCall w) (hend.symm.trans hcall)⟩

end Machine

end Sys2Proof

/-! ## The obligations of 43_quadrant_dispatch.md -/

/-- Settles O27: the rules before the one that fires are walked past, and so is the whole list where none fires. -/
theorem firstLegalMatchFires : Obligations.FirstLegalMatchFires := by
  unfold Obligations.FirstLegalMatchFires
  intro rules word s
  refine ⟨?_, fun hnone => Group.ofRules_of_passed hnone s⟩
  rintro pre r post rfl hpre hfixed hlegal
  rw [Group.ofRules_append_of_passed hpre, Group.ofRules_cons_of_claims hfixed hlegal, Rule.fire]

/-- Settles O28: without overlap the rule that claims a word fires wherever it stands, and neither its action nor the
driver's finish sees where. -/
theorem orderIrrelevantWithoutOverlap : Obligations.OrderIrrelevantWithoutOverlap := by
  unfold Obligations.OrderIrrelevantWithoutOverlap
  refine ⟨fun rules rules' word s hno hperm => hno.ofRules_perm_cases hperm word s, fun rules rules' s hlawful hperm => ?_,
    fun ps qs word hno hperm => firstMatch_perm hno hperm word⟩
  refine decodeCall_congr fun w => ?_
  rw [dispatchCall_eq_group, dispatchCall_eq_group]
  exact (hlawful.nonOverlapping _).finish_ofRules_perm (hlawful.ignoresIndex _) (hperm _) _ _

/-- Settles O30: the walk's index is no part of the contract, so the group leaves what its firing rule leaves. -/
theorem lawfulRulesMakeALawfulGroup : Obligations.LawfulRulesMakeALawfulGroup :=
  ⟨fun _ _ hrules => Group.ofRules_keepsContract hrules,
    fun _ hlawful => ⟨hlawful.keepsContract, fun q word => (hlawful.nonOverlapping q).claimants_length_le_one word⟩⟩

/-- Settles O31: the one rule is that of `c.lui`, whose action keeps the contract from any fresh result. -/
theorem minimalRuleSetIsLawful : Obligations.MinimalRuleSetIsLawful :=
  ⟨rfl, ruleLists_lawful, ruleLists_lawful.keepsContract⟩

/-- Settles O44: outside quadrant `01` the pattern list is empty, so the word decodes to nothing. -/
theorem emptyGroupsAlwaysFail : Obligations.EmptyGroupsAlwaysFail := by
  unfold Obligations.EmptyGroupsAlwaysFail
  intro s w hw haligned hlow
  obtain ⟨-, h01, -, -⟩ := quadrantOf_eq_iff w.path
  have hnone : decodeWord w = none := decodeWord_eq_none_of_quadrant (mt h01.1 hlow)
  obtain ⟨t, ht, hend⟩ := step_callEnd hw ((misaligned_eq_false_iff _).2 haligned)
  exact ⟨t, ht, by rw [hend.output, callResult, hnone]⟩

/-- Settles O51: a call under the contract ends in the finish of a match or in the decode failure, each orderly. -/
theorem lawfulCallsAppendOrderlyIR : Obligations.LawfulCallsAppendOrderlyIR := by
  unfold Obligations.LawfulCallsAppendOrderlyIR
  intro rs s t hrs hcall
  obtain ⟨r, hout, hend⟩ := hrs.decodeCall_orderly hcall
  exact ⟨r, hout, hend.typed, hend.advances, hend.writesPC⟩

/-- Settles O29: the dispatched call is a function of the selected group's answer. -/
theorem onlySelectedGroupIsAsked : Obligations.OnlySelectedGroupIsAsked := by
  unfold Obligations.OnlySelectedGroupIsAsked
  intro rs rs' w s
  refine ⟨rfl, rfl, rfl, fun hsame => ?_⟩
  rw [dispatchCall_eq_group, dispatchCall_eq_group, hsame]
end

section
/-! PROOFS. The family of 44_rule_c_lui.md: the immediate, the word of `c.lui` and its fields, what decodes from it, and the
whole call it makes. The rules come first, then the obligations. -/

open Sys2Proof Sys2Proof.Machine

namespace Sys2Proof

/-! ## The word and its fields -/

/-- The legality check of `c.lui` (44_rule_c_lui.md R106). -/
theorem Instr.wf_cLui_iff {rd : BitVec 5} {imm6 : BitVec 6} :
    (Instr.cLui rd imm6).wf = true ↔ rd ≠ 0 ∧ rd ≠ 2 ∧ imm6 ≠ 0 := by
  simp [Instr.wf, and_assoc]

/-- Bits laid side by side are a sum: the left ones stand above the right ones. -/
theorem append_toNat_eq_add {m n : Nat} (x : BitVec m) (y : BitVec n) :
    (x ++ y).toNat = 2 ^ n * x.toNat + y.toNat := by
  rw [BitVec.toNat_append, ← Nat.shiftLeft_add_eq_or_of_lt y.isLt, Nat.shiftLeft_eq, Nat.mul_comm]

/-- A field as arithmetic: the word divided by the field's position, modulo its size (40_bitfield_signext.md R63). -/
theorem extractField_toNat_eq_div_mod {n : Nat} (w : BitVec n) (h l : Nat) (ok : l ≤ h ∧ h < n) :
    (extractField w h l ok).toNat = w.toNat / 2 ^ l % 2 ^ (h - l + 1) := by
  rw [extractField_toNat, Nat.shiftRight_eq_div_pow]

theorem cLuiRd_toNat (word : BitVec 32) : (cLuiRd word).toNat = word.toNat / 128 % 32 :=
  extractField_toNat_eq_div_mod word 11 7 (by decide)

/-- The immediate field is bit 12 beside bits 6..2 (30_encoding.md R51). -/
theorem cLuiImm6_eq_append (word : BitVec 32) :
    cLuiImm6 word = (extractField word 12 12 : BitVec 1) ++ (extractField word 6 2 : BitVec 5) := by
  have hbeside : ∀ (hi : BitVec 1) (lo : BitVec 5), hi.setWidth 6 <<< 5 ||| lo.setWidth 6 = hi ++ lo := by decide
  exact hbeside _ _

theorem cLuiImm6_toNat (word : BitVec 32) :
    (cLuiImm6 word).toNat = word.toNat / 4096 % 2 * 32 + word.toNat / 4 % 32 := by
  have hhigh : (extractField word 12 12 : BitVec 1).toNat = word.toNat / 4096 % 2 :=
    extractField_toNat_eq_div_mod word 12 12 (by decide)
  have hlow : (extractField word 6 2 : BitVec 5).toNat = word.toNat / 4 % 32 :=
    extractField_toNat_eq_div_mod word 6 2 (by decide)
  rw [cLuiImm6_eq_append, append_toNat_eq_add, hhigh, hlow]
  omega

/-- The word of `c.lui` is the sum of its fields, each at its position (30_encoding.md R50). -/
theorem encode_cLui_path_toNat (rd : BitVec 5) (imm6 : BitVec 6) :
    (encode (.cLui rd imm6)).path.toNat =
      24577 + 4096 * (imm6.toNat / 32) + 128 * rd.toNat + 4 * (imm6.toNat % 32) := by
  have hhigh : (extractField imm6 5 5 : BitVec 1).toNat = imm6.toNat / 32 % 2 :=
    extractField_toNat_eq_div_mod imm6 5 5 (by decide)
  have hlow : (extractField imm6 4 0 : BitVec 5).toNat = imm6.toNat % 32 :=
    extractField_toNat imm6 4 0 (by decide)
  have hfunct : (0b011#3).toNat = 3 := rfl
  have hquadrant : (0b01#2).toNat = 1 := rfl
  rw [encode, InstrWord.path_compressed_toNat, append_toNat_eq_add, append_toNat_eq_add, append_toNat_eq_add,
    append_toNat_eq_add, hhigh, hlow, hfunct, hquadrant]
  omega

theorem cLuiRd_encode (rd : BitVec 5) (imm6 : BitVec 6) : cLuiRd (encode (.cLui rd imm6)).path = rd := by
  apply BitVec.eq_of_toNat_eq
  rw [cLuiRd_toNat, encode_cLui_path_toNat]
  omega

theorem cLuiImm6_encode (rd : BitVec 5) (imm6 : BitVec 6) : cLuiImm6 (encode (.cLui rd imm6)).path = imm6 := by
  apply BitVec.eq_of_toNat_eq
  rw [cLuiImm6_toNat, encode_cLui_path_toNat]
  omega

/-- An encoded instruction decodes to itself where its operands are legal, and to nothing where they are reserved
(44_rule_c_lui.md R105, R106). -/
theorem decodeWord_encode (i : Instr) : decodeWord (encode i) = if i.wf then some i else none := by
  cases i with
  | cLui rd imm6 =>
    obtain ⟨p, hp, hfixed⟩ := Laws.EncodedQuadrant.cLui rd imm6
    obtain ⟨hq, rfl⟩ := mem_patterns hp
    have hinstr : cLuiPattern.instr (encode (.cLui rd imm6)).path = .cLui rd imm6 := by
      change Instr.cLui (cLuiRd _) (cLuiImm6 _) = _
      rw [cLuiRd_encode, cLuiImm6_encode]
    have hlegal : cLuiPattern.legal (encode (.cLui rd imm6)).path = (Instr.cLui rd imm6).wf :=
      congrArg Instr.wf hinstr
    rw [decodeWord, hq, patterns, firstMatch, hfixed, hlegal, hinstr, Bool.true_and, firstMatch]

namespace Machine

/-! ## The immediate -/

/-- The low 18 bits of `imm6 << 12` are the immediate field above 12 zeros (30_encoding.md R51). -/
theorem cLuiUimm18_setWidth_toInt (imm6 : BitVec 6) :
    ((cLuiUimm18 imm6).setWidth 18).toInt = imm6.toInt * 4096 := by
  have himm := imm6.isLt
  simp only [BitVec.toInt_eq_toNat_cond, BitVec.toNat_setWidth, cLuiUimm18, BitVec.toNat_shiftLeft, Nat.shiftLeft_eq]
  omega

/-- The sign-extended immediate is the 6-bit field, as a signed number, times 4096. -/
theorem signExtendValue_cLuiUimm18_toInt (imm6 : BitVec 6) :
    (signExtendValue (cLuiUimm18 imm6) 18).toInt = imm6.toInt * 4096 := by
  rw [signExtendValue_toInt _ (by decide) (by decide), cLuiUimm18_setWidth_toInt]

theorem signExtendValue_cLuiUimm18_eq_ofInt (imm6 : BitVec 6) :
    signExtendValue (cLuiUimm18 imm6) 18 = BitVec.ofInt 64 (imm6.toInt * 4096) := by
  rw [← signExtendValue_cLuiUimm18_toInt, BitVec.ofInt_toInt]

/-! ## The action and the whole call -/

/-- The state a `c.lui` call leaves: two statements appended, 2 bytes consumed, the trace line, the engine at rest
(44_rule_c_lui.md R105, 45_driver.md R114). -/
def State.afterLoadUpper (s : State) (rd : BitVec 5) (imm6 : BitVec 6) : State :=
  { s with
    block :=
      { stmts := s.block.stmts ++
          [.put (regOffset rd.toFin) (.const64 (BitVec.ofInt 64 (imm6.toInt * 4096))),
           .put pcOffset (.const64 (s.guestAddress + 2))]
        tmps := s.block.tmps }
    output := some { DecodeResult.defaults with consumedBytes := .two }
    textOut := s.textOut ++ traceLines s.diagnosticsEnabled s.guestAddress (.instr (.cLui rd imm6))
    instrWord := none
    result := .defaults
    dispatcher := .init
    ruleIndex := 0 }

theorem exec_cLui_eq (rd : BitVec 5) (imm6 : BitVec 6) (s : State) :
    exec (.cLui rd imm6) s = .next
      { s with
        block :=
          { stmts := s.block.stmts ++ [.put (regOffset rd.toFin) (.const64 (BitVec.ofInt 64 (imm6.toInt * 4096)))]
            tmps := s.block.tmps }
        result := { s.result with consumedBytes := .two }
        textOut := s.textOut ++ traceLines s.diagnosticsEnabled s.guestAddress (.instr (.cLui rd imm6)) } := by
  rw [exec, execCLui_eq, signExtendValue_cLuiUimm18_eq_ofInt]
  rfl

/-- A call on a well-formed `c.lui` runs its action from a fresh result, and the driver goes on to the next address. -/
theorem step_cLui {s : State} {rd : BitVec 5} {imm6 : BitVec 6} (hwf : (Instr.cLui rd imm6).wf = true)
    (hw : lengthDetect s.buffer s.offset = some (encode (.cLui rd imm6))) (hal : misaligned s.guestAddress = false) :
    step s = .next (s.afterLoadUpper rd imm6) := by
  obtain ⟨k, hk⟩ := step_of_decodeWord_some hw hal ((decodeWord_encode _).trans (if_pos hwf))
  rw [hk, exec_cLui_eq, andThen_next, finishMatch_continue _ rfl, append, List.append_assoc]
  rfl

/-- With diagnostics on there is exactly the one line, and never another. -/
theorem State.afterLoadUpper_textOut (s : State) (rd : BitVec 5) (imm6 : BitVec 6) :
    (s.afterLoadUpper rd imm6).textOut = s.textOut ++ [.traceLine (.instr (.cLui rd imm6))] ∨
    (s.diagnosticsEnabled = false ∧ (s.afterLoadUpper rd imm6).textOut = s.textOut) :=
  s.traceRule_cases (.instr (.cLui rd imm6))

/-! ## What the two writes mean -/

/-- Constant writes of a register other than 0 and then of the program counter: each shows, neither through the other, and
nothing else changes (42_register_model_ir.md R90). -/
theorem runStmts_put_reg_put_pc (g : GuestState) {n : Fin 32} (hn : n ≠ 0) (v a : Word) :
    ∃ g', runStmts [.put (regOffset n) (.const64 v), .put pcOffset (.const64 a)] g = some g' ∧
      g'.read (regOffset n) = v ∧ g'.read pcOffset = a ∧ g'.env = g.env ∧
      ∀ off, off ≠ regOffset n → off ≠ pcOffset → g'.read off = g.read off := by
  have hzero : regOffset n ≠ .reg 0 := fun h => hn (Offset.reg.inj h)
  have hpc : regOffset n ≠ pcOffset := Offset.noConfusion
  refine ⟨(g.write (regOffset n) v).write pcOffset a, rfl, ?_, rfl, ?_, fun off hreg hoffpc => ?_⟩
  · rw [GuestState.read_write_other _ _ _ _ hpc, GuestState.read_write_same _ _ _ hzero]
  · rw [GuestState.write_env, GuestState.write_env]
  · rw [GuestState.read_write_other _ _ _ _ hoffpc, GuestState.read_write_other _ _ _ _ hreg]

end Machine

end Sys2Proof

/-! ## The obligations of 44_rule_c_lui.md -/

/-- Settles O32: the immediate is the 6-bit field times 4096, and the action always completes. -/
theorem loadUpperAppendsOneWrite : Obligations.LoadUpperAppendsOneWrite :=
  fun rd imm6 s _ => exec_cLui_eq rd imm6 s

/-- Settles O33: the encoding of a legal `c.lui` decodes to it, and a fresh call on it is known whole. -/
theorem loadUpperCallCompletes : Obligations.LoadUpperCallCompletes := by
  unfold Obligations.LoadUpperCallCompletes
  intro s rd imm6 hwf hw haligned
  refine ⟨s.afterLoadUpper rd imm6, step_cLui hwf hw ((misaligned_eq_false_iff _).2 haligned), rfl, rfl, rfl,
    ⟨rfl, rfl, rfl, rfl⟩, rfl, rfl, rfl, rfl, rfl, ?_⟩
  obtain htext | ⟨hoff, htext⟩ := s.afterLoadUpper_textOut rd imm6
  · exact ⟨fun _ => htext, .inr htext⟩
  · exact ⟨fun hon => absurd (hoff.symm.trans hon) Bool.false_ne_true, .inl htext⟩

/-- Settles O34: `rd` is not register 0, so its write shows, and the two locations written are distinct. -/
theorem loadUpperMeaning : Obligations.LoadUpperMeaning := by
  unfold Obligations.LoadUpperMeaning
  intro s t rd imm6 g hwf hw hstep
  obtain ⟨-, -, hal, -⟩ := step_eq_next hstep
  obtain rfl : s.afterLoadUpper rd imm6 = t := Host.Outcome.next.inj ((step_cLui hwf hw hal).symm.trans hstep)
  obtain ⟨hrd, -, -⟩ := Instr.wf_cLui_iff.1 hwf
  obtain ⟨g', hrun, hreg, hpc, henv, hframe⟩ := runStmts_put_reg_put_pc g (fun h => hrd (BitVec.eq_of_toFin_eq h))
    (BitVec.ofInt 64 (imm6.toInt * 4096)) (s.guestAddress + 2)
  refine ⟨g', ?_, ?_, hpc, henv, hframe⟩
  · rw [State.afterLoadUpper, List.drop_left, hrun]
  · rw [hreg, ← signExtendValue_cLuiUimm18_eq_ofInt, signExtendValue_cLuiUimm18_toInt]

/-- Settles O35: a reserved operand value is not legal, so the word names no instruction and the call fails. -/
theorem rejectedLoadUpperFails : Obligations.RejectedLoadUpperFails := by
  unfold Obligations.RejectedLoadUpperFails
  intro s rd imm6 hreserved hw haligned
  have hwf : ¬ (Instr.cLui rd imm6).wf = true := fun h => by
    obtain ⟨hzero, htwo, himm⟩ := Instr.wf_cLui_iff.1 h
    exact hreserved.elim hzero (Or.rec htwo himm)
  have hnone : decodeWord (encode (.cLui rd imm6)) = none := (decodeWord_encode _).trans (if_neg hwf)
  obtain ⟨t, ht, hend⟩ := step_callEnd hw ((misaligned_eq_false_iff _).2 haligned)
  exact ⟨t, ht, by rw [hend.output, callResult, hnone], by rw [hend.block, callStmts, hnone]; rfl⟩
end

section
/-! PROOFS. The family of 45_driver.md: the bytes a call reads, the two faults of a call and where each comes from, what a
call on a word returns, and the driver's finish. The rules come first, then the obligations. -/

open Sys2Proof Sys2Proof.Machine

namespace Sys2Proof

/-! ## The units and the bytes that are read -/

/-- The second unit matters only where the first is not compressed (41_length_detect.md R76). -/
theorem lengthDetectWith_congr_of_needed {rd rd' : Nat → Option FetchUnit} {off off' : Nat} (h0 : rd off = rd' off')
    (h2 : ∀ u0, rd off = some u0 → isCompressed u0 = false → rd (off + 2) = rd' (off' + 2)) :
    lengthDetectWith rd off = lengthDetectWith rd' off' := by
  unfold lengthDetectWith
  rw [← h0]
  cases hu0 : rd off with
  | none => rfl
  | some u0 =>
    cases hc : isCompressed u0 with
    | true => simp [hc]
    | false => simp [hc, h2 u0 hu0 hc]

/-- A reader that gives, further up, every unit another one gives from 0 has the same word there. -/
theorem lengthDetectWith_of_shifted {rd rd' : Nat → Option FetchUnit} {off : Nat} {w : InstrWord}
    (hshift : ∀ k u, rd k = some u → rd' (off + k) = some u) (h : lengthDetectWith rd 0 = some w) :
    lengthDetectWith rd' off = some w := by
  obtain ⟨u0, h0, ⟨hc, hw⟩ | ⟨hc, u1, h1, hw⟩⟩ := lengthDetectWith_eq_some.1 h
  · exact lengthDetectWith_eq_some.2 ⟨u0, hshift 0 u0 h0, .inl ⟨hc, hw⟩⟩
  · exact lengthDetectWith_eq_some.2 ⟨u0, hshift 0 u0 h0, .inr ⟨hc, u1, hshift 2 u1 h1, hw⟩⟩

/-- Bytes that decode hold a whole word, and the word names the instruction. -/
theorem decode_eq_ok {bytes rest : List Byte} {i : Instr} (h : decode bytes = .ok (i, rest)) :
    ∃ w, lengthDetectWith (unitOfBytes bytes) 0 = some w ∧ decodeWord w = some i := by
  unfold decode at h
  split at h
  · cases h
  · next w hw =>
    split at h
    · cases h
    · next j hj =>
      cases h
      exact ⟨w, hw, hj⟩

namespace Machine

theorem bufRead16_congr {m m' : Memory} {off off' : Nat} (hlo : m.read off = m'.read off')
    (hhi : m.read (off + 1) = m'.read (off' + 1)) : bufRead16 m off = bufRead16 m' off' := by
  simp only [bufRead16, hlo, hhi]

/-- The word is a function of the bytes read: the first two, and the next two where the first one's low bits are `0b11`
(41_length_detect.md R76). -/
theorem lengthDetect_congr {m m' : Memory} {off off' : Nat} (h0 : m.read off = m'.read off')
    (h1 : m.read (off + 1) = m'.read (off' + 1))
    (hmore : ∀ lo, m.read off = some lo → lo.toNat % 4 = 3 →
      m.read (off + 2) = m'.read (off' + 2) ∧ m.read (off + 3) = m'.read (off' + 3)) :
    lengthDetect m off = lengthDetect m' off' := by
  refine lengthDetectWith_congr_of_needed (bufRead16_congr h0 h1) fun u0 hu0 hc => ?_
  obtain ⟨lo, hi, hlo, -, rfl⟩ := bufRead16_eq_some.1 hu0
  obtain ⟨h2, h3⟩ := hmore lo hlo ((isCompressed_fetchUnit_eq_false lo hi).1 hc)
  exact bufRead16_congr h2 h3

/-- Where the buffer holds a list of bytes, its length detector finds the word the list begins with. -/
theorem lengthDetect_of_bytes {m : Memory} {a : Nat} {bytes : List Byte} {w : InstrWord}
    (hbytes : ∀ k, k < bytes.length → m.read (a + k) = bytes[k]?)
    (hw : lengthDetectWith (unitOfBytes bytes) 0 = some w) : lengthDetect m a = some w := by
  refine lengthDetectWith_of_shifted (fun k u hu => ?_) hw
  obtain ⟨lo, hi, hlo, hhi, -⟩ := unitOfBytes_eq_some.1 hu
  obtain ⟨hk, -⟩ := List.getElem?_eq_some_iff.1 hlo
  obtain ⟨hk1, -⟩ := List.getElem?_eq_some_iff.1 hhi
  rw [bufRead16_eq_unitOfBytes (hbytes k hk) (hbytes (k + 1) hk1), hu]

/-! ## Where a fault of a call comes from -/

theorem andThen_eq_fault {α β : Type} {x : Host.Outcome α Fault Refusal} {f : α → Host.Outcome β Fault Refusal}
    {r : Fault} : andThen x f = .fault r ↔ x = .fault r ∨ ∃ a, x = .next a ∧ f a = .fault r := by
  cases x <;> simp

/-- What a decode call that faults has gone through, for any rule set (60_exceptions.md R130). -/
theorem decodeCall_eq_fault {rs : RuleSet} {s : State} {f : Fault} (h : decodeCall rs s = .fault f) :
    (f = .noStep ∧ lengthDetect s.buffer s.offset = none) ∨
    ∃ w, lengthDetect s.buffer s.offset = some w ∧
      ((f = .abort .misalignedGuestAddress ∧ misaligned s.guestAddress = true) ∨
       (misaligned s.guestAddress = false ∧
         andThen (rs (quadrantOf w.path) w.path (s.inCall w)) finish = .fault f)) := by
  cases hw : lengthDetect s.buffer s.offset with
  | none =>
    simp only [decodeCall, hw] at h
    cases h
    exact .inl ⟨rfl, rfl⟩
  | some w =>
    refine .inr ⟨w, rfl, ?_⟩
    cases hmis : misaligned s.guestAddress with
    | true =>
      rw [decodeCall_of_misaligned rs hw hmis] at h
      cases h
      exact .inl ⟨rfl, rfl⟩
    | false => exact .inr ⟨rfl, decodeCall_eq_group rs hw hmis ▸ h⟩

/-- The two faults of a step, by the word and the address alone (60_exceptions.md R128). -/
theorem step_eq_fault_iff {s : State} {f : Fault} :
    step s = .fault f ↔
      (f = .noStep ∧ lengthDetect s.buffer s.offset = none) ∨
      (f = .abort .misalignedGuestAddress ∧ (∃ w, lengthDetect s.buffer s.offset = some w) ∧
        misaligned s.guestAddress = true) := by
  constructor
  · intro h
    obtain hnone | ⟨w, hw, ⟨hf, hmis⟩ | ⟨hal, -⟩⟩ := decodeCall_eq_fault h
    · exact .inl hnone
    · exact .inr ⟨hf, ⟨w, hw⟩, hmis⟩
    · obtain ⟨t, ht, -⟩ := step_callEnd hw hal
      cases ht.symm.trans h
  · rintro (⟨rfl, hnone⟩ | ⟨rfl, ⟨w, hw⟩, hmis⟩)
    · exact step_of_lengthDetect_none hnone
    · exact decodeCall_of_misaligned ruleSet hw hmis

theorem finishMatch_completes (s : State) : ∃ t, finishMatch s = .next t := by
  cases h : s.result.nextAction with
  | goOn => exact ⟨_, finishMatch_continue s h⟩
  | stop => exact ⟨_, finishMatch_stop s h⟩

/-- An ordered list of rules, asked with a fresh result, faults only in a rule's own action: a walk that ends in no-match
leaves the result fresh, and both finishes then complete (43_quadrant_dispatch.md R97, R98). -/
theorem Group.finish_ofRules_eq_fault {rules : List Rule} {word : BitVec 32} {s : State} {f : Fault}
    (hs : s.result = .defaults) (h : andThen (Group.ofRules rules word s) finish = .fault f) :
    ∃ r ∈ rules, ∃ s', r.action word s' = .fault f := by
  rcases Group.ofRules_cases rules word s with ⟨pre, r, post, rfl, -, -, -, hfire⟩ | ⟨-, hnone⟩
  · rw [hfire, Rule.fire, andThen_assoc] at h
    obtain haction | ⟨u, -, hfinish⟩ := andThen_eq_fault.1 h
    · exact ⟨r, by simp, _, haction⟩
    · obtain ⟨t, ht⟩ := finishMatch_completes u
      cases ht.symm.trans hfinish
  · have hfailure : finish (.noMatch, s.passRules rules.length) = takeDecodeFailure s := finish_noMatchKept hs rfl
    rw [hnone, andThen_next, hfailure, takeDecodeFailure_eq] at h
    cases h

/-! ## What a call on a word returns -/

theorem callResult_of_some {w : InstrWord} {i : Instr} (h : decodeWord w = some i) :
    callResult w = { DecodeResult.defaults with consumedBytes := .two } := by
  rw [callResult, h]

theorem callResult_of_none {w : InstrWord} (h : decodeWord w = none) : callResult w = .failed := by
  rw [callResult, h]

/-- A call stops exactly where its word names no instruction. -/
theorem callResult_stop_iff {w : InstrWord} : (callResult w).nextAction = .stop ↔ decodeWord w = none := by
  cases h : decodeWord w with
  | none => simp [callResult_of_none h, DecodeResult.failed]
  | some i => simp [callResult_of_some h, DecodeResult.defaults]

theorem dumpLines_some (flag : Bool) (a : Word) (w : InstrWord) :
    dumpLines flag a (some w) = if flag then [.dump a w] else [] := by
  cases flag <;> rfl

/-! ## The length a group's rules report -/

/-- The group of a detected word reports the word's own length (43_quadrant_dispatch.md R92). -/
theorem consumedOf_bytes_of_lengthDetect {m : Memory} {off : Nat} {w : InstrWord} (hw : lengthDetect m off = some w) :
    (consumedOf (quadrantOf w.path)).bytes = w.length := by
  obtain ⟨-, -, -, h11⟩ := quadrantOf_eq_iff w.path
  obtain ⟨hlow, -, hlength⟩ | ⟨hlow, -, hlength⟩ := lengthDetectWith_width_class hw
  · have hq : quadrantOf w.path ≠ .q11 := mt h11.1 hlow
    rw [hlength]
    cases hquad : quadrantOf w.path with
    | q11 => exact absurd hquad hq
    | q00 | q01 | q10 => rfl
  · rw [hlength, h11.2 hlow]
    rfl

end Machine

end Sys2Proof

/-! ## The obligations of 45_driver.md -/

/-- Settles O55: the bytes read fix the word, and the word and the address fix the fault, the result and the statements. -/
theorem outcomeDependsOnlyOnBytesRead : Obligations.OutcomeDependsOnlyOnBytesRead := by
  unfold Obligations.OutcomeDependsOnlyOnBytesRead
  intro s s' haddress h0 h1 hmore
  have hword : lengthDetect s.buffer s.offset = lengthDetect s'.buffer s'.offset := lengthDetect_congr h0 h1 hmore
  refine ⟨fun f hfault => ?_, fun t hstep => ?_⟩
  · rw [step_eq_fault_iff, hword, haddress] at hfault
    exact step_eq_fault_iff.2 hfault
  · obtain ⟨w, hw, hal, hend⟩ := callEnd_of_step hstep
    obtain ⟨t', hstep', hend'⟩ := step_callEnd (hword ▸ hw) (haddress ▸ hal)
    refine ⟨t', callStmts w s.guestAddress, hstep', hend'.output.trans hend.output.symm, hend.block, ?_⟩
    rw [hend'.block, haddress]

/-- Settles O39: `stop` retires the call as it stands, and on this hardware only a word that names nothing stops. -/
theorem stopAppendsNothingFurther : Obligations.StopAppendsNothingFurther := by
  unfold Obligations.StopAppendsNothingFurther
  refine ⟨fun s hstop => ⟨_, finishMatch_stop s hstop, rfl, rfl⟩, fun s t hstep r hr hstop => ?_⟩
  obtain ⟨w, -, -, hend⟩ := callEnd_of_step hstep
  obtain rfl : callResult w = r := Option.some.inj (hend.output.symm.trans hr)
  exact callResult_of_none (callResult_stop_iff.1 hstop)

/-- Settles O40: the protocol check, and that the faults of a call under ordered rules are the two stops and those of the
rules' actions. -/
theorem changedResultWithNoMatchAborts : Obligations.ChangedResultWithNoMatchAborts := by
  unfold Obligations.ChangedResultWithNoMatchAborts
  refine ⟨fun s hchanged => if_neg hchanged, fun rules s hactions habort => ?_⟩
  obtain ⟨hf, -⟩ | ⟨w, -, ⟨hf, -⟩ | ⟨-, hgroup⟩⟩ := decodeCall_eq_fault habort
  · cases hf
  · cases hf
  · obtain ⟨r, hr, s', haction⟩ := Group.finish_ofRules_eq_fault (s := s.inCall w) rfl hgroup
    exact hactions _ r hr _ s' haction

/-- Settles O41: the call is the decode failure on the call in progress, which appends the rewind and keeps the rest. -/
theorem failedDecodeRewinds : Obligations.FailedDecodeRewinds := by
  unfold Obligations.FailedDecodeRewinds
  intro s w hw haligned hnone
  have hstep := step_of_decodeWord_none hw ((misaligned_eq_false_iff _).2 haligned) hnone
  exact ⟨_, hstep.trans (takeDecodeFailure_eq _), rfl, rfl, rfl, rfl, rfl, rfl, rfl, rfl⟩

/-- Settles O43: a failed call is the decode failure, whose text is the dump; result and block are functions of the word,
the address and the block, which the flag is no part of. -/
theorem diagnosticsChangeOnlyText : Obligations.DiagnosticsChangeOnlyText := by
  unfold Obligations.DiagnosticsChangeOnlyText
  refine ⟨fun s t w hw hstep hfailed => ?_, fun s t flag hstep => ?_⟩
  · obtain ⟨w', hw', hal, hend⟩ := callEnd_of_step hstep
    obtain rfl : w' = w := Option.some.inj (hw'.symm.trans hw)
    have hresult : callResult w' = .failed := Option.some.inj (hend.output.symm.trans hfailed)
    have hnone : decodeWord w' = none := callResult_stop_iff.1 (congrArg DecodeResult.nextAction hresult)
    rw [step_of_decodeWord_none hw hal hnone, takeDecodeFailure_eq] at hstep
    cases hstep
    exact congrArg (s.textOut ++ ·) (dumpLines_some s.diagnosticsEnabled s.guestAddress w')
  · obtain ⟨w, hw, hal, hend⟩ := callEnd_of_step hstep
    obtain ⟨t', hstep', hend'⟩ := step_callEnd (s := { s with diagnosticsEnabled := flag }) hw hal
    exact ⟨t', hstep', hend'.output.trans hend.output.symm, hend'.block.trans hend.block.symm⟩

/-- Settles O49: a match reports the length of its group, which is the word's; the decode failure reports 0. -/
theorem consumedBytesMatchTheLength : Obligations.ConsumedBytesMatchTheLength := by
  unfold Obligations.ConsumedBytesMatchTheLength
  intro rs s t w hrs hw hcall
  obtain ⟨-, -, -, hal, -, -⟩ := decodeCall_eq_next hcall
  rcases hrs.decodeCall_cases hw hal with ⟨u, hkept, hend⟩ | hend
  · obtain ⟨hout, -⟩ := hkept.finishMatch_orderly (hend.symm.trans hcall)
    obtain ⟨hzero, -⟩ := hkept.consistent
    refine ⟨u.result, hout, fun _ => ?_, fun hnoDecode => ?_⟩
    · rw [hkept.consumed, consumedOf_bytes_of_lengthDetect hw]
    · rw [hzero.2 hnoDecode]
      rfl
  · obtain ⟨hout, -⟩ := takeDecodeFailure_orderly (hend.symm.trans hcall)
    exact ⟨.failed, hout, fun hne => absurd rfl hne, fun _ => rfl⟩

/-- Settles O36: a call reads nothing of the working state before `startCall` has replaced all of it. -/
theorem everyCallStartsFromDefaults : Obligations.EveryCallStartsFromDefaults :=
  ⟨rfl, State.startCall_result, fun _ _ _ _ _ _ => rfl⟩

/-- Settles O38, by the value of a 64-bit sum. -/
theorem continueAdvancesProgramCounter : Obligations.ContinueAdvancesProgramCounter := by
  unfold Obligations.ContinueAdvancesProgramCounter
  intro s hgo
  refine ⟨_, finishMatch_continue s hgo, rfl, rfl, rfl, rfl, _, rfl, ?_⟩
  rw [BitVec.toNat_add, BitVec.toNat_ofNat, Nat.add_mod_mod]

/-- Settles O45: bytes that decode hold a word that names the instruction, and the buffer holds those bytes. -/
theorem stepRunsTheDecodedInstruction : Obligations.StepRunsTheDecodedInstruction := by
  unfold Obligations.StepRunsTheDecodedInstruction
  intro s bytes rest i hbytes hdecode haligned
  obtain ⟨w, hdetect, hi⟩ := decode_eq_ok hdecode
  have hw : lengthDetect s.buffer s.offset = some w := lengthDetect_of_bytes hbytes hdetect
  obtain ⟨k, hk⟩ := step_of_decodeWord_some hw ((misaligned_eq_false_iff _).2 haligned) hi
  exact ⟨w, k, hw, hk⟩
end

section
/-! PROOFS. The family of 60_exceptions.md: the codes at a port read back, and what a failed call appended and means. The
rules come first, then the obligations. -/

open Sys2Proof Sys2Proof.Machine

namespace Sys2Proof.Machine

/-! ## Reading a port: for each code the value it stands for (60_exceptions.md R129)

Numbers that are no code read as the last value, so that every reader is total. -/

def NextAction.ofCode : Nat → NextAction
  | 0 => .goOn
  | _ => .stop

theorem NextAction.ofCode_code : Function.LeftInverse ofCode code
  | .goOn | .stop => rfl

def ConsumedBytes.ofCode : Nat → ConsumedBytes
  | 0 => .zero
  | 2 => .two
  | _ => .four

theorem ConsumedBytes.ofCode_code : Function.LeftInverse ofCode code
  | .zero | .two | .four => rfl

def TerminalKind.ofCode : Nat → TerminalKind
  | 0 => .none
  | 1 => .noDecode
  | k + 2 => .other k

theorem TerminalKind.ofCode_code : Function.LeftInverse ofCode code
  | .none | .noDecode | .other _ => rfl

def Hint.ofCode : Nat → Hint
  | 0 => .none
  | h + 1 => .other h

theorem Hint.ofCode_code : Function.LeftInverse ofCode code
  | .none | .other _ => rfl

def AbortReason.ofCode : Nat → AbortReason
  | 1 => .registerRange
  | 2 => .signExtendWidth
  | 3 => .registerWriteType
  | 4 => .protocolViolation
  | 5 => .misalignedGuestAddress
  | _ => .extractRange

theorem AbortReason.ofCode_code : Function.LeftInverse ofCode code
  | .registerRange | .signExtendWidth | .registerWriteType | .protocolViolation | .misalignedGuestAddress
  | .extractRange => rfl

/-! ## What a failed call appended -/

/-- `FAILED` is returned only for a word that names no instruction, and then the rewind alone is appended. -/
theorem callStmts_of_callResult_failed {w : InstrWord} (a : Word) (h : callResult w = .failed) :
    callStmts w a = [.put .pc (.const64 a)] := by
  have hnone : decodeWord w = none := callResult_stop_iff.1 (congrArg DecodeResult.nextAction h)
  rw [callStmts, hnone]

theorem CallEnd.block_since {s t : State} {w : InstrWord} (h : CallEnd s w t) :
    t.block.since s.block = callStmts w s.guestAddress := by
  rw [h.block, IRBlock.since, List.drop_left]

/-- The rewind writes the program counter and nothing else (60_exceptions.md R132). -/
theorem runStmts_put_pc (g : GuestState) (a : Word) :
    runStmts [.put .pc (.const64 a)] g = some { g with pc := a } := by
  rw [runStmts_cons, runStmt_put_of_eval .pc rfl]
  rfl

theorem misaligned_eq_true_iff (a : Word) : misaligned a = true ↔ a.toNat % 4 ≠ 0 := by
  rw [← Bool.not_eq_false, Ne, misaligned_eq_false_iff]

end Sys2Proof.Machine

/-! ## The obligations of 60_exceptions.md -/

/-- Settles O42: what a failed call appended is the rewind alone. -/
theorem failedDecodeMeaning : Obligations.FailedDecodeMeaning := by
  unfold Obligations.FailedDecodeMeaning
  intro s t g hstep hfailed
  obtain ⟨w, -, -, hend⟩ := callEnd_of_step hstep
  have hresult : callResult w = .failed := Option.some.inj (hend.output.symm.trans hfailed)
  calc runStmts (t.block.since s.block) g
      = runStmts (callStmts w s.guestAddress) g := by rw [hend.block_since]
    _ = runStmts [.put .pc (.const64 s.guestAddress)] g := by rw [callStmts_of_callResult_failed _ hresult]
    _ = some { g with pc := s.guestAddress } := runStmts_put_pc g s.guestAddress

/-- Settles O48: the read comes first, the alignment check next, and a call past both completes. -/
theorem outcomesInPriorityOrder : Obligations.OutcomesInPriorityOrder := by
  unfold Obligations.OutcomesInPriorityOrder
  refine fun s => ⟨step_of_lengthDetect_none, fun hresident hmis => ?_, fun hresident hal => ?_⟩
  · obtain ⟨w, hw⟩ := Option.ne_none_iff_exists'.1 hresident
    exact decodeCall_of_misaligned ruleSet hw ((misaligned_eq_true_iff _).2 hmis)
  · obtain ⟨w, hw⟩ := Option.ne_none_iff_exists'.1 hresident
    obtain ⟨t, ht, -⟩ := step_callEnd hw ((misaligned_eq_false_iff _).2 hal)
    exact ⟨t, ht⟩

/-- Settles O59: a value is what its code reads back as. -/
theorem portCodesAreDistinct : Obligations.PortCodesAreDistinct :=
  ⟨fun _ _ h => NextAction.ofCode_code.injective h, fun _ _ h => ConsumedBytes.ofCode_code.injective h,
    fun _ _ h => TerminalKind.ofCode_code.injective h, fun _ _ h => Hint.ofCode_code.injective h,
    fun _ _ h => AbortReason.ofCode_code.injective h⟩
end

section
/-! PROOFS. The family of 70_reset_and_hazards.md: what a successful call appends last, and that 2 bytes past an aligned
address is misaligned. The rules come first, then the obligations. -/

open Sys2Proof Sys2Proof.Machine

namespace Sys2Proof.Machine

/-- A call that did not fail appends the program-counter write of the next address last (45_driver.md R114). -/
theorem callStmts_of_callResult_ne_failed {w : InstrWord} (a : Word) (h : callResult w ≠ .failed) :
    ∃ acts, callStmts w a = acts ++ [.put .pc (.const64 (a + 2))] := by
  cases hi : decodeWord w with
  | none => exact absurd (callResult_of_none hi) h
  | some i => exact ⟨actionStmts i, by rw [callStmts, hi]⟩

/-- The address after a 2-byte instruction is off the 4-byte boundary, also where it wraps (70_reset_and_hazards.md R150). -/
theorem misaligned_add_two {a : Word} (h : misaligned a = false) : misaligned (a + 2) = true := by
  rw [misaligned_eq_false_iff] at h
  rw [misaligned_eq_true_iff]
  bv_omega

theorem issue_of_misaligned {s : State} {c : Call} (hresident : lengthDetect s.buffer c.offset ≠ none)
    (hmis : misaligned c.guestAddress = true) : issue s c = .fault (.abort .misalignedGuestAddress) := by
  obtain ⟨w, hw⟩ := Option.ne_none_iff_exists'.1 hresident
  exact decodeCall_of_misaligned ruleSet (s := s.present c) hw hmis

end Sys2Proof.Machine

/-! ## The obligations of 70_reset_and_hazards.md -/

/-- Settles O58: the first call's alignment is what makes the next address, which it wrote last, misaligned. -/
theorem nextCallAfterTwoByteInstructionAborts : Obligations.NextCallAfterTwoByteInstructionAborts := by
  unfold Obligations.NextCallAfterTwoByteInstructionAborts
  intro s t c hstep hsuccess hnext
  obtain ⟨w, -, hal, hend⟩ := callEnd_of_step hstep
  have hresult : callResult w ≠ .failed := fun hfailed => hsuccess (hfailed ▸ hend.output)
  obtain ⟨acts, hacts⟩ := callStmts_of_callResult_ne_failed s.guestAddress hresult
  rw [hnext]
  refine ⟨?_, fun hresident => issue_of_misaligned hresident (hnext ▸ misaligned_add_two hal)⟩
  rw [hend.block, hacts, ← List.append_assoc]
  exact List.getLast?_concat

/-- Settles O54: the fields of the reset state as they stand, and register 0 reads zero of any guest state. -/
theorem resetStateIsIdle : Obligations.ResetStateIsIdle :=
  ⟨rfl, rfl, rfl, rfl, GuestState.read_reg_zero State.reset.guest⟩
end

section
/-! PROOFS. The decoder and the encoder as one relation: which words name an instruction, which bytes decode, and that both
are exactly the encodings of well-formed instructions; then the state after reset. The rules come first, then the
obligations. -/

open Sys2Proof Sys2Proof.Machine

namespace Sys2Proof

/-! ## The fixed bits and the legality of `c.lui` -/

theorem Instr.wf_cLui_iff_toNat {rd : BitVec 5} {imm6 : BitVec 6} :
    (Instr.cLui rd imm6).wf = true ↔ rd.toNat ≠ 0 ∧ rd.toNat ≠ 2 ∧ imm6.toNat ≠ 0 := by
  rw [Instr.wf_cLui_iff, ne_eq, ne_eq, ne_eq, ← BitVec.toNat_inj, ← BitVec.toNat_inj, ← BitVec.toNat_inj]
  rfl

/-- The fixed bits as arithmetic: the quadrant and the funct field (44_rule_c_lui.md R105). -/
theorem cLuiFixed_iff {word : BitVec 32} :
    cLuiFixed word = true ↔ word.toNat % 4 = 1 ∧ word.toNat / 8192 % 8 = 3 := by
  have hquadrant : (extractField word 1 0 : BitVec 2).toNat = word.toNat % 4 := extractField_low_toNat word (by decide)
  have hfunct : (extractField word 15 13 : BitVec 3).toNat = word.toNat / 8192 % 8 :=
    extractField_toNat_eq_div_mod word 15 13 (by decide)
  rw [cLuiFixed, Bool.and_eq_true, beq_iff_eq, beq_iff_eq, ← BitVec.toNat_inj, ← BitVec.toNat_inj, hquadrant, hfunct]
  rfl

/-- The mask `0xE003` keeps bits 15..13 and bits 1..0 and clears the eleven bits between. -/
theorem and_0xE003_eq (x : Nat) : x &&& 0xE003 = x / 2 ^ 13 % 2 ^ 3 * 2 ^ 13 + x % 2 ^ 2 := by
  have hlow : (x &&& 0xE003) % 2 ^ 2 = x % 2 ^ 2 := by
    rw [Nat.and_mod_two_pow, ← Nat.and_two_pow_sub_one_eq_mod x 2, Nat.and_assoc]
    rfl
  have hmid : (x &&& 0xE003) / 2 ^ 2 % 2 ^ 11 = 0 := by
    rw [Nat.and_div_two_pow, Nat.and_mod_two_pow]
    exact Nat.and_zero _
  have hhigh : (x &&& 0xE003) / 2 ^ 13 = x / 2 ^ 13 % 2 ^ 3 := by
    rw [Nat.and_div_two_pow, ← Nat.and_two_pow_sub_one_eq_mod (x / 2 ^ 13) 3]
  omega

/-- A 16-bit word has the fixed bits exactly where the mask finds them (30_encoding.md R53). -/
theorem cLuiFixed_compressed_iff {u : BitVec 16} :
    cLuiFixed (InstrWord.compressed u).path = true ↔ u &&& 0xE003#16 = 0x6001#16 := by
  have hmask : (u &&& 0xE003#16).toNat = u.toNat / 2 ^ 13 % 2 ^ 3 * 2 ^ 13 + u.toNat % 2 ^ 2 := and_0xE003_eq u.toNat
  have hfixed : (0x6001#16).toNat = 24577 := rfl
  rw [cLuiFixed_iff, InstrWord.path_compressed_toNat, ← BitVec.toNat_inj, hmask, hfixed]
  omega

/-! ## The words that name an instruction -/

/-- A word names an instruction exactly where `c.lui` claims it, and then names `c.lui` with its own fields
(43_quadrant_dispatch.md R101, 44_rule_c_lui.md R105, R106). -/
theorem decodeWord_eq_some_iff {w : InstrWord} {i : Instr} :
    decodeWord w = some i ↔
      cLuiFixed w.path = true ∧ i.wf = true ∧ i = .cLui (cLuiRd w.path) (cLuiImm6 w.path) := by
  constructor
  · intro h
    obtain ⟨p, hp, hfixed, hlegal, rfl⟩ := firstMatch_eq_some h
    obtain ⟨-, rfl⟩ := mem_patterns hp
    exact ⟨hfixed, hlegal, rfl⟩
  · rintro ⟨hfixed, hwf, rfl⟩
    obtain ⟨-, hq01, -, -⟩ := quadrantOf_eq_iff w.path
    obtain ⟨hlow, -⟩ := cLuiFixed_iff.1 hfixed
    have hp : cLuiPattern ∈ patterns (quadrantOf w.path) := by
      rw [hq01.2 hlow]
      exact List.mem_singleton.2 rfl
    exact firstMatch_of_claims (Machine.ruleLists_nonOverlapping _) hp hfixed hwf

theorem toNat_mod_four_of_decodeWord {w : InstrWord} {i : Instr} (h : decodeWord w = some i) : w.path.toNat % 4 = 1 := by
  obtain ⟨hfixed, -, -⟩ := decodeWord_eq_some_iff.1 h
  obtain ⟨hlow, -⟩ := cLuiFixed_iff.1 hfixed
  exact hlow

theorem exists_encode_eq_compressed (i : Instr) : ∃ u, encode i = .compressed u := by
  cases i with
  | cLui rd imm6 => exact ⟨_, rfl⟩

/-- The value on the path tells which 16-bit word an encoding is. -/
theorem encode_eq_compressed_iff {i : Instr} {u : BitVec 16} :
    encode i = .compressed u ↔ (encode i).path.toNat = u.toNat := by
  obtain ⟨v, hv⟩ := exists_encode_eq_compressed i
  rw [hv, InstrWord.path_compressed_toNat, InstrWord.compressed.injEq, BitVec.toNat_inj]

/-- The 16-bit words that name an instruction are the encodings of the well-formed instructions (30_encoding.md R53). -/
theorem decodeWord_compressed_eq_some_iff {u : BitVec 16} {i : Instr} :
    decodeWord (.compressed u) = some i ↔ i.wf = true ∧ encode i = .compressed u := by
  constructor
  · intro h
    obtain ⟨hfixed, hwf, rfl⟩ := decodeWord_eq_some_iff.1 h
    refine ⟨hwf, encode_eq_compressed_iff.2 ?_⟩
    rw [cLuiFixed_iff, InstrWord.path_compressed_toNat] at hfixed
    rw [encode_cLui_path_toNat, cLuiRd_toNat, cLuiImm6_toNat, InstrWord.path_compressed_toNat]
    omega
  · rintro ⟨hwf, hu⟩
    rw [← hu, decodeWord_encode, if_pos hwf]

/-! ## The bytes that decode -/

theorem fetchUnit_extractField (u : FetchUnit) : fetchUnit (extractField u 7 0) (extractField u 15 8) = u := by
  have hlo : (extractField u 7 0 : Byte).toNat = u.toNat % 256 := extractField_toNat u 7 0 (by decide)
  have hhi : (extractField u 15 8 : Byte).toNat = u.toNat / 256 % 256 := extractField_toNat_eq_div_mod u 15 8 (by decide)
  apply BitVec.eq_of_toNat_eq
  rw [fetchUnit_toNat, hlo, hhi]
  omega

theorem bytes_compressed_fetchUnit (lo hi : Byte) : (InstrWord.compressed (fetchUnit lo hi)).bytes = [lo, hi] := by
  have hlo : extractField (fetchUnit lo hi) 7 0 = lo := by
    apply BitVec.eq_of_toNat_eq
    rw [extractField_toNat_eq_div_mod, fetchUnit_toNat]
    omega
  have hhi : extractField (fetchUnit lo hi) 15 8 = hi := by
    apply BitVec.eq_of_toNat_eq
    rw [extractField_toNat_eq_div_mod, fetchUnit_toNat]
    omega
  rw [InstrWord.bytes, hlo, hhi]

/-- The first unit of a list of bytes is the word whose bytes the list begins with (20_memory.md R33). -/
theorem unitOfBytes_zero_eq_some_iff {bytes : List Byte} {u : FetchUnit} :
    unitOfBytes bytes 0 = some u ↔ bytes = (InstrWord.compressed u).bytes ++ bytes.drop 2 := by
  constructor
  · intro h
    match bytes, h with
    | lo :: hi :: rest, h =>
      obtain rfl : fetchUnit lo hi = u := Option.some.inj h
      rw [bytes_compressed_fetchUnit]
      rfl
  · intro h
    rw [h]
    exact congrArg some (fetchUnit_extractField u)

/-- No rule stands in the 32-bit group, so a detected word that names an instruction is the first unit alone
(43_quadrant_dispatch.md R101). -/
theorem eq_compressed_of_decodeWord {rd : Nat → Option FetchUnit} {off : Nat} {w : InstrWord} {i : Instr}
    (hw : lengthDetectWith rd off = some w) (hi : decodeWord w = some i) : ∃ u, rd off = some u ∧ w = .compressed u := by
  obtain ⟨u, hu, ⟨-, hshort⟩ | ⟨hlong, u1, -, rfl⟩⟩ := lengthDetectWith_eq_some.1 hw
  · exact ⟨u, hu, hshort⟩
  · have hlow := toNat_mod_four_of_decodeWord hi
    rw [InstrWord.path_full, pairUnits_toNat_mod_four, (isCompressed_eq_false_iff u).1 hlong] at hlow
    cases hlow

theorem decode_of_decodeWord {bytes : List Byte} {w : InstrWord} {i : Instr}
    (hw : lengthDetectWith (unitOfBytes bytes) 0 = some w) (hi : decodeWord w = some i) :
    decode bytes = .ok (i, bytes.drop w.length) := by
  simp only [decode, hw, hi]

/-- The lists of bytes that decode are those that begin with a 16-bit word that names an instruction. -/
theorem decode_eq_ok_iff_word {bytes rest : List Byte} {i : Instr} :
    decode bytes = .ok (i, rest) ↔
      ∃ u, decodeWord (.compressed u) = some i ∧ bytes = (InstrWord.compressed u).bytes ++ rest := by
  constructor
  · intro h
    obtain ⟨w, hw, hi⟩ := decode_eq_ok h
    obtain ⟨u, hu, rfl⟩ := eq_compressed_of_decodeWord hw hi
    obtain rfl : bytes.drop 2 = rest :=
      congrArg Prod.snd (Except.ok.inj ((decode_of_decodeWord hw hi).symm.trans h))
    exact ⟨u, hi, unitOfBytes_zero_eq_some_iff.1 hu⟩
  · rintro ⟨u, hi, rfl⟩
    have hu : unitOfBytes ((InstrWord.compressed u).bytes ++ rest) 0 = some u := unitOfBytes_zero_eq_some_iff.2 rfl
    have hlow := toNat_mod_four_of_decodeWord hi
    rw [InstrWord.path_compressed_toNat] at hlow
    exact decode_of_decodeWord (lengthDetectWith_of_low_ne_three hu (by omega)) hi

/-- The decoder and the encoder are one relation: bytes decode to an instruction exactly where it is well-formed and they
begin with its encoding (30_encoding.md R53, R61). -/
theorem decode_eq_ok_iff {bytes rest : List Byte} {i : Instr} :
    decode bytes = .ok (i, rest) ↔ i.wf = true ∧ bytes = (encode i).bytes ++ rest := by
  rw [decode_eq_ok_iff_word]
  constructor
  · rintro ⟨u, hi, hbytes⟩
    obtain ⟨hwf, hu⟩ := decodeWord_compressed_eq_some_iff.1 hi
    exact ⟨hwf, hu ▸ hbytes⟩
  · rintro ⟨hwf, hbytes⟩
    obtain ⟨u, hu⟩ := exists_encode_eq_compressed i
    exact ⟨u, decodeWord_compressed_eq_some_iff.2 ⟨hwf, hu⟩, hu ▸ hbytes⟩

end Sys2Proof

/-! ## The obligations on the encoding -/

/-- Settles O1: an encoding followed by any bytes is what decodes. -/
theorem decodeOfEncodedInstruction : Obligations.DecodeOfEncodedInstruction :=
  fun _ _ hwf => decode_eq_ok_iff.2 ⟨hwf, rfl⟩

/-- Settles O2: the converse of the round trip. -/
theorem encodeOfDecodedBytes : Obligations.EncodeOfDecodedBytes :=
  fun _ _ _ h => decode_eq_ok_iff.1 h

/-- Settles O4: the mask is the test of the fixed bits, and the fields, read from the path, are the numbers stated. -/
theorem compressedWordFiresExactly : Obligations.CompressedWordFiresExactly := by
  unfold Obligations.CompressedWordFiresExactly
  intro w i
  have hrd : (cLuiRd (InstrWord.compressed w).path).toNat = w.toNat / 128 % 32 := by
    rw [cLuiRd_toNat, InstrWord.path_compressed_toNat]
  have himm : (cLuiImm6 (InstrWord.compressed w).path).toNat = w.toNat / 4096 % 2 * 32 + w.toNat / 4 % 32 := by
    rw [cLuiImm6_toNat, InstrWord.path_compressed_toNat]
  rw [decodeWord_eq_some_iff, cLuiFixed_compressed_iff, ← hrd, ← himm]
  refine and_congr_right fun _ => ⟨?_, ?_⟩
  · rintro ⟨hwf, rfl⟩
    exact ⟨_, _, rfl, rfl, rfl, Instr.wf_cLui_iff_toNat.1 hwf⟩
  · rintro ⟨rd, imm6, rfl, hrd, himm, hlegal⟩
    refine ⟨Instr.wf_cLui_iff_toNat.2 hlegal, ?_⟩
    rw [BitVec.eq_of_toNat_eq hrd, BitVec.eq_of_toNat_eq himm]

/-- Settles O3: each word is four bytes, on which the decoder is evaluated. -/
theorem writtenWordsDecode : Obligations.WrittenWordsDecode := by
  unfold Obligations.WrittenWordsDecode
  decide

/-! ## The obligation on the invariant -/

/-- Settles O53: nothing is in the buffer, the block or the environment, and no result stands at the port. -/
theorem resetMeetsTheInvariant : Obligations.ResetMeetsTheInvariant where
  bufferWf := rfl
  guestInv := ⟨rfl, rfl⟩
  atRest := ⟨rfl, rfl, rfl, rfl⟩
  outputConsistent := fun _ h => nomatch h
  blockTyped := rfl
end
